-- ==== Sys2Proof/Word.lean ====
section
/-! DEFINITION. The value types of the codec (spec/00_scope.md R7): unsigned bit vectors of a stated
width, bits numbered from the least significant, bit 0 (R6). Nothing is signed and nothing carries. -/

namespace Sys2Proof

/-- One bit: a net of width 1 (R7 `bit`). -/
abbrev Bit := BitVec 1

/-- Format NIB4 (spec/30_encoding.md R50, R51): input of ENCODE, output of DECODE. -/
abbrev Nibble := BitVec 4

/-- Format CW8 (R50, R52): output of ENCODE, input of DECODE. -/
abbrev Codeword := BitVec 8

/-- Format SYN3 (R50, R55): the address of `syndrome_rom`. -/
abbrev Syndrome := BitVec 3

/-- Format MASK8 (R50, R56): a word of `syndrome_rom`. -/
abbrev Mask := BitVec 8

/-- A byte of a stream the environment handles (spec/42_environment.md R111, R112). -/
abbrev Byte := BitVec 8

end Sys2Proof
end

