-- ==== Sys2Proof/Machine/Operands.lean ====
section
/-! DEFINITION. Operand assembly (spec/30_encoding.md R57): the taps that give the fields of each word
format, and the concatenations that build a word from its fields. Nothing is sign-extended, scaled or
shifted by a variable amount. -/

namespace Sys2Proof.Machine

/-- `v[i]`: bit i of v, bit 0 the least significant (spec/00_scope.md R6, R8). -/
def tap {w : Nat} (v : BitVec w) (i : Nat) : Bit := v.extractLsb' i 1

/-! ## NIB4: `d1 d2 d3 d4`, d1 the most significant bit (R51) -/

/-- d1 of a nibble. -/
def nibbleD1 (n : Nibble) : Bit := tap n 3
/-- d2 of a nibble. -/
def nibbleD2 (n : Nibble) : Bit := tap n 2
/-- d3 of a nibble. -/
def nibbleD3 (n : Nibble) : Bit := tap n 1
/-- d4 of a nibble. -/
def nibbleD4 (n : Nibble) : Bit := tap n 0

/-! ## CW8: `u d1 d2 d3 d4 p1 p2 p3`, bit 7 down to bit 0 (R52) -/

/-- The unused bit u of a codeword, bit 7 (R61). DECODE does not read it. -/
def codewordU (c : Codeword) : Bit := tap c 7
/-- d1 of a codeword as received, bit 6. -/
def codewordD1 (c : Codeword) : Bit := tap c 6
/-- d2 of a codeword as received, bit 5. -/
def codewordD2 (c : Codeword) : Bit := tap c 5
/-- d3 of a codeword as received, bit 4. -/
def codewordD3 (c : Codeword) : Bit := tap c 4
/-- d4 of a codeword as received, bit 3. -/
def codewordD4 (c : Codeword) : Bit := tap c 3
/-- p1 of a codeword as received, bit 2. -/
def codewordP1 (c : Codeword) : Bit := tap c 2
/-- p2 of a codeword as received, bit 1. -/
def codewordP2 (c : Codeword) : Bit := tap c 1
/-- p3 of a codeword as received, bit 0. -/
def codewordP3 (c : Codeword) : Bit := tap c 0

/-- `c[6:3]`: the four data bits of a codeword, right-aligned (R53, spec/41_decoder.md R91). -/
def dataField (c : Codeword) : Nibble := c.extractLsb' 3 4

/-- `c[2:0]`: the three parity bits of a codeword, `{p1, p2, p3}` (R53). -/
def parityField (c : Codeword) : BitVec 3 := c.extractLsb' 0 3

/-- `{0, d1, d2, d3, d4, p1, p2, p3}`: a codeword from its fields, bit 7 written 0 (R52, R61;
spec/20_memory.md R33). -/
def layoutCodeword (d1 d2 d3 d4 p1 p2 p3 : Bit) : Codeword :=
  0#1 ++ d1 ++ d2 ++ d3 ++ d4 ++ p1 ++ p2 ++ p3

/-- `{s1, s2, s3}`: a syndrome from its three checks, s1 the most significant (R55). -/
def layoutSyndrome (s1 s2 s3 : Bit) : Syndrome := s1 ++ s2 ++ s3

end Sys2Proof.Machine
end

