-- ==== Sys2Proof/Machine/Flags.lean ====
section
/-! DEFINITION. The hardware has no flags: no condition code, and no "error detected", "error corrected"
or "uncorrectable" signal, neither as state nor as an output (spec/10_state.md R13). What it computes in a
flag's place are the three parities of the encoder and the three checks of the decoder, which are
internal nets (R18, R19); this file holds their equations. -/

namespace Sys2Proof.Machine

/-! ## The encoder's parities (spec/30_encoding.md R53, spec/40_encoder.md R71) -/

/-- p1 covers d2, d3, d4. -/
def parityP1 (n : Nibble) : Bit := nibbleD2 n ^^^ nibbleD3 n ^^^ nibbleD4 n
/-- p2 covers d1, d3, d4. -/
def parityP2 (n : Nibble) : Bit := nibbleD1 n ^^^ nibbleD3 n ^^^ nibbleD4 n
/-- p3 covers d1, d2, d4. -/
def parityP3 (n : Nibble) : Bit := nibbleD1 n ^^^ nibbleD2 n ^^^ nibbleD4 n

/-! ## The decoder's checks (spec/41_decoder.md R86): each parity bit as received, with the data bits
it covers as received. Bit 7 is in no check. -/

/-- s1, the check of p1: bits 5, 4, 3, 2. -/
def checkS1 (c : Codeword) : Bit := codewordD2 c ^^^ codewordD3 c ^^^ codewordD4 c ^^^ codewordP1 c
/-- s2, the check of p2: bits 6, 4, 3, 1. -/
def checkS2 (c : Codeword) : Bit := codewordD1 c ^^^ codewordD3 c ^^^ codewordD4 c ^^^ codewordP2 c
/-- s3, the check of p3: bits 6, 5, 3, 0. -/
def checkS3 (c : Codeword) : Bit := codewordD1 c ^^^ codewordD2 c ^^^ codewordD4 c ^^^ codewordP3 c

/-- Step 1 of DECODE: the syndrome `{s1, s2, s3}` of a received word (R86, packed as R55 says). -/
def syndrome (c : Codeword) : Syndrome := layoutSyndrome (checkS1 c) (checkS2 c) (checkS3 c)

end Sys2Proof.Machine
end

