-- ==== Sys2Proof/Machine/SyndromeRom.lean ====
section
/-! DEFINITION. `syndrome_rom`, the sub-block of the decoder (spec/10_state.md R20, R21; spec/20_memory.md
R31): 8 words of 8 bits, every address populated, no write port, contents fixed when the hardware is
built. It is the only address space of the hardware. -/

namespace Sys2Proof.Machine

/-- The eight words (spec/41_decoder.md R89). The word at address k is the mask of the one codeword bit
whose lone flip gives syndrome k (R87), and 0x00 at address 0. The source's shift formulas are not used
(R98, spec/90_conflicts.md C1, C2). -/
def syndromeRom : Vector Mask 8 :=
  #v[0x00#8, 0x01#8, 0x02#8, 0x40#8, 0x04#8, 0x20#8, 0x10#8, 0x08#8]

/-- Step 2 of DECODE: `SYNDROME_ROM[a]`, the look-up (R88). The address is the syndrome itself; it
cannot be out of range. -/
def romWord (a : Syndrome) : Mask := syndromeRom[a.toNat]'a.isLt

end Sys2Proof.Machine
end

