-- ==== Sys2Proof/Machine/Codec.lean ====
section
/-! DEFINITION. The two functions that are the hardware (spec/00_scope.md R9): ENCODE from a nibble to a
codeword, DECODE from a codeword to a nibble, each written as the spec's pseudocode is. -/

namespace Sys2Proof.Machine

/-- ENCODE (spec/40_encoder.md R70). -/
def encodeNibble (n : Nibble) : Codeword :=
  layoutCodeword (nibbleD1 n) (nibbleD2 n) (nibbleD3 n) (nibbleD4 n) (parityP1 n) (parityP2 n) (parityP3 n)

/-- ENCODE on an unsigned integer of any width: its low four bits are encoded and the rest are ignored,
never rejected (R74, spec/92_eei_decisions.md D3). -/
def encodeWide {w : Nat} (v : BitVec w) : Codeword := encodeNibble (v.extractLsb' 0 4)

/-- The flip mask for a received word: steps 1 and 2 of DECODE (spec/41_decoder.md R86, R88). -/
def flipMask (c : Codeword) : Mask := romWord (syndrome c)

/-- Step 3 of DECODE: the received word with the mask put on it (R90). -/
def corrected (c : Codeword) : Codeword := c ^^^ flipMask c

/-- DECODE (R85): step 4 takes the four data bits of the corrected word (R91). -/
def decodeCodeword (c : Codeword) : Nibble := dataField (corrected c)

end Sys2Proof.Machine
end

