-- ==== Sys2Proof/Syntax.lean ====
section
/-! DEFINITION. The two operations of the hardware (spec/30_encoding.md R58, R59), one constructor for
each row of spec/opcode_table.json, and the ports that select between them. -/

namespace Sys2Proof

/-- The two blocks (spec/00_scope.md R1). `syndrome_rom` is inside the decoder and has no port. -/
inductive Block where
  | encoder   -- `hamming_7_4_encoder`, input port `nibble_in[3:0]`
  | decoder   -- `hamming_7_4_decoder`, input port `codeword_in[7:0]`
  deriving DecidableEq, Repr

/-- An input port: which block, and which instance of it. Any number of instances of either block
may stand side by side (spec/10_state.md R16, spec/42_environment.md R110); an instance is named by a
number, which is the model's own name for it. -/
structure Port where
  block : Block
  inst  : Nat
  deriving DecidableEq, Repr

/-- One evaluation the environment asks for (R9, R63): a word put on the input port of an instance.
The operand types are exactly the port widths (spec/70_reset_and_hazards.md R153), so that no
instruction can hold a bit that is not there. -/
inductive Instr where
  /-- ENCODE (spec/40_encoder.md R70): `nibble` is put on `nibble_in` of encoder instance `inst`. -/
  | encode (inst : Nat) (nibble : Nibble)
  /-- DECODE (spec/41_decoder.md R85): `codeword` is put on `codeword_in` of decoder instance `inst`. -/
  | decode (inst : Nat) (codeword : Codeword)
  deriving DecidableEq, Repr

end Sys2Proof
end

