-- ==== Sys2Proof/WellFormed.lean ====
section
/-! DEFINITION. Which instructions are well formed: all of them. The spec leaves nothing to check:
"A model has no well-formedness check to apply to an input word and no input to refuse"
(spec/60_exceptions.md R127; spec/30_encoding.md R60). -/

namespace Sys2Proof

/-- Every one of the 16 nibbles is a legal ENCODE operand and every one of the 256 words a legal
DECODE operand (R60), on every instance. -/
def WellFormed (i : Instr) : Bool :=
  match i with
  | .encode _ _ => true
  | .decode _ _ => true

end Sys2Proof
end

