-- ==== Sys2Proof/Decode.lean ====
section
/-! DEFINITION. From a word on a port to the operation it asks for, and back. No bit of a word selects
an operation; the port does (spec/30_encoding.md R58), and "a decoder in the ISA sense … is the constant
function on each port" (R59). The functions here take the port and the word. -/

namespace Sys2Proof

/-! ## Words to instructions -/

/-- Why the reader of words gives no instruction. No WORD is refused (R60); the one reason is that
there is none. -/
inductive DecodeRefusal where
  /-- No word is on the port, so there is nothing to evaluate (spec/70_reset_and_hazards.md R147: all
  bits of a port are driven). -/
  | noWord
  deriving DecidableEq, Repr

/-- The four bits that reach `nibble_in` when the environment offers a byte-typed argument: the low
four, the others ignored (spec/40_encoder.md R74, spec/10_state.md R17, spec/90_conflicts.md C6). -/
def nibbleOfByte (w : Byte) : Nibble := w.extractLsb' 0 4

/-- The instruction asked for by a word on a port. Total: every word on either port asks for an
evaluation (R60). -/
def decodeWord (p : Port) (w : Byte) : Instr :=
  match p.block with
  | .encoder => .encode p.inst (nibbleOfByte w)
  | .decoder => .decode p.inst w

/-- The first instruction of a sequence of words on one port, and the words after it. -/
def decode (p : Port) (words : List Byte) : Except DecodeRefusal (Instr × List Byte) :=
  match words with
  | []         => .error .noWord
  | w :: words => .ok (decodeWord p w, words)

/-- All the instructions of a sequence of words on one port: one word, one instruction (R50, R62:
formats of fixed length, no prefix). -/
def decodeAll (p : Port) (words : List Byte) : List Instr :=
  match words with
  | []         => []
  | w :: words => decodeWord p w :: decodeAll p words

/-! ## Instructions to words -/

/-- The port an instruction's word is put on (R58). -/
def portOf (i : Instr) : Port :=
  match i with
  | .encode k _ => ⟨.encoder, k⟩
  | .decode k _ => ⟨.decoder, k⟩

/-- The word of an instruction as a byte: the nibble `abcd` in the low four bits (R59 row ENCODE), or
the codeword `uabcdxyz` (row DECODE). -/
def wordOf (i : Instr) : Byte :=
  match i with
  | .encode _ n => n.setWidth 8
  | .decode _ c => c

/-- The words of an instruction: one. -/
def encode (i : Instr) : List Byte := [wordOf i]

/-! ## The opcode table -/

/-- A row of spec/opcode_table.json: the width of its input word, its mask and its match. -/
structure TableRow where
  mnemonic : String
  block    : Block
  width    : Nat
  mask     : Nat
  pattern  : Nat
  deriving DecidableEq, Repr

/-- The two rows (R59), in the table's order. Mask and match are zero: every word of the row's width
matches. -/
def opcodeTable : List TableRow :=
  [⟨"ENCODE", .encoder, 4, 0, 0⟩,
   ⟨"DECODE", .decoder, 8, 0, 0⟩]

/-- A row admits a word when the word has no bit beyond the row's width and the row's fixed bits (there
are none) are as the row says. -/
def TableRow.admits (r : TableRow) (nbits w : Nat) : Bool :=
  decide (r.width ≤ nbits) && decide (w < 2 ^ r.width) && (w &&& r.mask == r.pattern)

/-- The port a bare table word is taken to be for: that of the first row of the table that admits it,
on instance 0. This serves `decodeTableWord` and `withFetchWord` ALONE, whose arguments name no port.
The machine itself never chooses a port from the bits of a word (R58).
DESIGN CHOICE (log entry 7): both rows admit a word below 16 that is said to have 8 bits, and the
table's order then decides. -/
def tablePort (nbits w : Nat) : Option Port :=
  (opcodeTable.find? (fun r => r.admits nbits w)).map (fun r => ⟨r.block, 0⟩)

/-- The instruction read from a table word whose bits are `w`; none where no row admits it. -/
def decodeTableWord (nbits w : Nat) : Option Instr :=
  (tablePort nbits w).map (fun p => decodeWord p (BitVec.ofNat 8 w))

end Sys2Proof
end

