-- ==== Sys2Proof/Machine/State.lean ====
section
/-! DEFINITION. The state of the model, and the reasons a step can stop. The hardware itself holds no
state at all: "A model's machine state for the core is the unit type" (spec/10_state.md R10 to R16, R23).
What State holds is what the ENVIRONMENT holds around the hardware: the words it keeps on the input ports
(spec/70_reset_and_hazards.md R149), its finite list of evaluations still to be done, and the results it
has read, in their positions (spec/42_environment.md R118). The outputs and the internal nets are no
fields, because they hold "no value of their own: at every instant the function of the current input"
(R145): Machine/Ports.lean reads them off the inputs. The words of `syndrome_rom` are no field either,
because they are "a constant of the hardware, not state" (R20). -/

namespace Sys2Proof.Machine

/-- What the environment is to do next: put `word` on `port` and read that block's output. The word is
byte-typed, as a driver's or test bench's argument is; an encoder port takes its low four bits
(spec/40_encoder.md R74). -/
structure Drive where
  port : Port
  word : Byte
  deriving DecidableEq, Repr

/-- An output word as the environment read it. -/
inductive Output where
  | codeword (c : Codeword)   -- from `codeword_out` of an encoder
  | nibble   (n : Nibble)     -- from `nibble_out` of a decoder
  deriving DecidableEq, Repr

/-- One evaluation, complete in itself (R118): what was asked and the word that was read. -/
structure Evaluation where
  op  : Instr
  out : Output
  deriving DecidableEq, Repr

/-- The state. -/
structure State where
  /-- `nibble_in` of every encoder instance that is driven (R17), by instance number, in strictly
  rising order. An instance that is not listed is not driven. -/
  nibbleIn   : List (Nat × Nibble)
  /-- `codeword_in` of every decoder instance that is driven (R19), likewise. -/
  codewordIn : List (Nat × Codeword)
  /-- The environment's finite list of evaluations still to be done, the next one first (R118). -/
  pending    : List Drive
  /-- The evaluations done, the first one first. The run's result is their outputs at the positions of what
  was asked (R118); a driver of a stream places them by its own order (R41, `placeResults`). -/
  record     : List Evaluation
  deriving DecidableEq, Repr

/-- The faults of the hardware: there are none. "The complete list of exception causes is therefore
empty" (spec/60_exceptions.md R125); "the core has no fault, no stuck state, no refusal and no hang"
(R128). Nothing raises a fault, so nothing about one is safe or unsafe. -/
inductive Fault where
  deriving DecidableEq, Repr

/-- The refusals of the model. The hardware refuses nothing (R127, R128). -/
inductive Refusal where
  /-- For an arm of `exec` whose instruction has no meaning yet, by its mnemonic. No arm raises it:
  both instructions have their meaning. Safe: a model that stops proves nothing false. -/
  | notModelled (mnemonic : String)
  deriving DecidableEq, Repr

/-- The state before the environment has done anything. "No piece of state exists, so no reset value
exists" (R23, R145): nothing is driven, nothing is asked for, nothing has been read. Not driven is the
environment's own condition (R147, R153), not a register without a reset value (log entry 4). -/
def State.reset : State :=
  { nibbleIn := [], codewordIn := [], pending := [], record := [] }

end Sys2Proof.Machine
end

