-- ==== Sys2Proof/Machine/Ops.lean ====
section
/-! DEFINITION. The named operations over the state. There is no memory to read or write
(spec/20_memory.md R30, R32), no register (spec/10_state.md R10), and NO EXCEPTION TO TAKE: "Trap entry does
not exist", "Trap return and nesting do not exist" (spec/60_exceptions.md R125, R131, R132). So the shared
operations are: hold a word on an input port, read the word a port holds, and write down a result. -/

namespace Sys2Proof.Machine

/-! ## Words held on the ports of the instances of one block -/

/-- The word an instance's port holds, if it is driven. -/
def heldOn {α : Type} (k : Nat) (ports : List (Nat × α)) : Option α :=
  match ports with
  | []              => none
  | (j, v) :: ports => if j = k then some v else heldOn k ports

/-- Put a word on the port of instance k, in place of the word it held. Every other instance keeps its
word (spec/10_state.md R16: instances share no net). -/
def holdOn {α : Type} (k : Nat) (v : α) (ports : List (Nat × α)) : List (Nat × α) :=
  match ports with
  | []              => [(k, v)]
  | (j, u) :: ports =>
    if k < j then (k, v) :: (j, u) :: ports
    else if k = j then (k, v) :: ports
    else (j, u) :: holdOn k v ports

/-- The canonical form of a list of ports: instance numbers strictly rising, so that equal port
contents are equal lists. -/
def portsWf {α : Type} (ports : List (Nat × α)) : Bool :=
  match ports with
  | []                          => true
  | [_]                         => true
  | (j, _) :: (k, v) :: ports   => decide (j < k) && portsWf ((k, v) :: ports)

/-! ## The environment's acts on the hardware (spec/42_environment.md R110) -/

/-- The environment drives `nibble_in` of encoder instance k. -/
def State.driveNibble (s : State) (k : Nat) (n : Nibble) : State :=
  { s with nibbleIn := holdOn k n s.nibbleIn }

/-- The environment drives `codeword_in` of decoder instance k. -/
def State.driveCodeword (s : State) (k : Nat) (c : Codeword) : State :=
  { s with codewordIn := holdOn k c s.codewordIn }

/-- The environment drives several encoder instances at once, each with a word (spec/20_memory.md R40,
R41: in parallel). Where an instance is listed twice its later word stays. -/
def State.driveNibbles (s : State) (words : List (Nat × Nibble)) : State :=
  words.foldl (fun s p => s.driveNibble p.1 p.2) s

/-- The environment drives several decoder instances at once, each with a word. -/
def State.driveCodewords (s : State) (words : List (Nat × Codeword)) : State :=
  words.foldl (fun s p => s.driveCodeword p.1 p.2) s

/-- The environment writes down an output it has read, after the results it has (R118). -/
def State.note (s : State) (op : Instr) (out : Output) : State :=
  { s with record := s.record ++ [⟨op, out⟩] }

/-- The environment's list of evaluations, replaced. -/
def State.withPending (s : State) (ds : List Drive) : State := { s with pending := ds }

/-! ## Fetch -/

/-- The instruction a pending drive asks for. -/
def instrOf (d : Drive) : Instr := decodeWord d.port d.word

/-- The drive that asks for an instruction: its word on its port. -/
def driveOf (i : Instr) : Drive := ⟨portOf i, wordOf i⟩

/-- The drives that a bare table word stands for: one, or none where no row admits the word. -/
def tableDrives (nbits w : Nat) : List Drive :=
  match tablePort nbits w with
  | none   => []
  | some p => [⟨p, BitVec.ofNat 8 w⟩]

end Sys2Proof.Machine
end

