-- ==== Sys2Proof/Machine/Decoder.lean ====
section
/-! DEFINITION. The meaning of the one operation of `hamming_7_4_decoder`. -/

namespace Sys2Proof.Machine

/-- DECODE (spec/41_decoder.md R85, R93; spec/30_encoding.md R63): the environment drives `codeword_in` of
decoder instance k with c and reads `DECODE(c)` from `nibble_out`. All 256 words run, two and more flipped
bits included (R97, spec/60_exceptions.md R126): nothing is signalled, and nothing else is touched. -/
def execDecode (k : Nat) (c : Codeword) (s : State) : Host.Outcome State Fault Refusal :=
  .next ((s.driveCodeword k c).note (.decode k c) (.nibble (decodeCodeword c)))

end Sys2Proof.Machine
end

