-- ==== Sys2Proof/Machine/Encoder.lean ====
section
/-! DEFINITION. The meaning of the one operation of `hamming_7_4_encoder`. -/

namespace Sys2Proof.Machine

/-- ENCODE (spec/40_encoder.md R70, R73; spec/30_encoding.md R63): the environment drives `nibble_in` of
encoder instance k with n and reads `ENCODE(n)` from `codeword_out`. It never faults and never refuses
(spec/60_exceptions.md R125, R128), and touches nothing else. -/
def execEncode (k : Nat) (n : Nibble) (s : State) : Host.Outcome State Fault Refusal :=
  .next ((s.driveNibble k n).note (.encode k n) (.codeword (encodeNibble n)))

end Sys2Proof.Machine
end

