-- ==== Sys2Proof/Machine/Dispatch.lean ====
section
/-! DEFINITION. One arm for each instruction (spec/30_encoding.md R59). -/

namespace Sys2Proof.Machine

def exec (i : Instr) (s : State) : Host.Outcome State Fault Refusal :=
  match i with
  | .encode k n => Sys2Proof.Machine.execEncode k n s
  | .decode k c => Sys2Proof.Machine.execDecode k c s

end Sys2Proof.Machine
end

