-- ==== Sys2Proof/Machine/Step.lean ====
section
/-! DEFINITION. One step: one evaluation of one block (spec/00_scope.md R9), the next in the environment's
finite list. The hardware has no program counter and fetches nothing (spec/10_state.md R12); what is run
next is the environment's to say (spec/42_environment.md R110, R118). -/

namespace Sys2Proof.Machine

/-- One step. Where the environment's list is at its end the run is over: nothing is pending, nothing
needs flushing (R118), and the state stays as it is (DESIGN CHOICE, log entry 6). -/
def step (s : State) : Host.Outcome State Fault Refusal :=
  match s.pending with
  | []      => .next s
  | d :: ds => exec (instrOf d) (s.withPending ds)

/-- The state in which the environment's next evaluation is that of the table word w. The evaluations
that were pending come after it. A word no row admits asks for nothing and places nothing. -/
def State.withFetchWord (s : State) (nbits w : Nat) : State :=
  s.withPending (tableDrives nbits w ++ s.pending)

end Sys2Proof.Machine
end

