-- ==== Sys2Proof/Machine/Realisations.lean ====
section
/-! DEFINITION. The other realisations the spec calls the same hardware (spec/10_state.md R22,
spec/40_encoder.md R76, spec/41_decoder.md R86, R92): any of them may stand for the reference form of
Machine/Codec.lean. The machine runs the reference form; that each agrees with it on every input is an
obligation. -/

namespace Sys2Proof.Machine

/-! ## ENCODE (R76) -/

/-- The 16 codewords, indexed by the nibble (spec/30_encoding.md R54). -/
def encodeTable : Vector Codeword 16 :=
  #v[0x00#8, 0x0F#8, 0x16#8, 0x19#8, 0x25#8, 0x2A#8, 0x33#8, 0x3C#8,
     0x43#8, 0x4C#8, 0x55#8, 0x5A#8, 0x66#8, 0x69#8, 0x70#8, 0x7F#8]

/-- ENCODE as a table look-up. -/
def encodeByTable (n : Nibble) : Codeword := encodeTable[n.toNat]'n.isLt

/-- A row of the generator matrix when a bit of the nibble is set, and 0 when it is not. -/
def generatorRow (b : Bit) (row : Codeword) : Codeword := if b = 1#1 then row else 0x00#8

/-- ENCODE as a linear map: the XOR of the rows of G that the set bits of the nibble select (R54). -/
def encodeByGenerator (n : Nibble) : Codeword :=
  generatorRow (nibbleD1 n) 0x43#8 ^^^ generatorRow (nibbleD2 n) 0x25#8
    ^^^ generatorRow (nibbleD3 n) 0x16#8 ^^^ generatorRow (nibbleD4 n) 0x0F#8

/-- ENCODE as an arithmetic sum of weights (spec/20_memory.md R33). -/
def encodeByWeights (n : Nibble) : Nat :=
  64 * (nibbleD1 n).toNat + 32 * (nibbleD2 n).toNat + 16 * (nibbleD3 n).toNat + 8 * (nibbleD4 n).toNat
    + 4 * (parityP1 n).toNat + 2 * (parityP2 n).toNat + (parityP3 n).toNat

/-! ## The syndrome -/

/-- The syndrome as the received parities against the parities recomputed from the received data bits
(R86, R55). -/
def syndromeByReencoding (c : Codeword) : Syndrome :=
  parityField c ^^^ parityField (encodeNibble (dataField c))

/-- Parity of the bits of a word that a mask selects. -/
def maskedParity (c mask : BitVec 8) : Bit :=
  let v := c &&& mask
  tap v 0 ^^^ tap v 1 ^^^ tap v 2 ^^^ tap v 3 ^^^ tap v 4 ^^^ tap v 5 ^^^ tap v 6 ^^^ tap v 7

/-- The syndrome by the rows of the parity-check matrix H (spec/30_encoding.md R54). -/
def syndromeByCheckMatrix (c : Codeword) : Syndrome :=
  layoutSyndrome (maskedParity c 0x3C#8) (maskedParity c 0x5A#8) (maskedParity c 0x69#8)

/-! ## DECODE -/

/-- The ROM with only mask bits 6 to 3 (R22; the last column of R89). -/
def reducedRom : Vector Nibble 8 :=
  #v[0x0#4, 0x0#4, 0x0#4, 0x8#4, 0x0#4, 0x4#4, 0x2#4, 0x1#4]

/-- DECODE with the reduced ROM: only the data bits are corrected. -/
def decodeByReducedRom (c : Codeword) : Nibble :=
  dataField c ^^^ reducedRom[(syndrome c).toNat]'(syndrome c).isLt

/-- DECODE as gates: the closed form per output bit (R92). -/
def decodeByGates (c : Codeword) : Nibble :=
  let s1 := checkS1 c
  let s2 := checkS2 c
  let s3 := checkS3 c
  (codewordD1 c ^^^ (~~~s1 &&& s2 &&& s3)) ++ (codewordD2 c ^^^ (s1 &&& ~~~s2 &&& s3))
    ++ (codewordD3 c ^^^ (s1 &&& s2 &&& ~~~s3)) ++ (codewordD4 c ^^^ (s1 &&& s2 &&& s3))

/-- Rows 0 to 3 of the direct table of DECODE (spec/95_test_vectors.md T5). -/
def decodeRowsLow : List Nibble :=
  [0x0#4, 0x0#4, 0x0#4, 0x8#4, 0x0#4, 0x4#4, 0x2#4, 0x1#4, 0x0#4, 0x3#4, 0x5#4, 0x1#4, 0x9#4, 0x1#4, 0x1#4, 0x1#4] ++
  [0x0#4, 0x3#4, 0x2#4, 0x6#4, 0x2#4, 0xA#4, 0x2#4, 0x2#4, 0x3#4, 0x3#4, 0xB#4, 0x3#4, 0x7#4, 0x3#4, 0x2#4, 0x1#4] ++
  [0x0#4, 0x4#4, 0x5#4, 0x6#4, 0x4#4, 0x4#4, 0xC#4, 0x4#4, 0x5#4, 0xD#4, 0x5#4, 0x5#4, 0x7#4, 0x4#4, 0x5#4, 0x1#4] ++
  [0xE#4, 0x6#4, 0x6#4, 0x6#4, 0x7#4, 0x4#4, 0x2#4, 0x6#4, 0x7#4, 0x3#4, 0x5#4, 0x6#4, 0x7#4, 0x7#4, 0x7#4, 0xF#4]

/-- Rows 4 to 7 of the direct table of DECODE (T5). -/
def decodeRowsHigh : List Nibble :=
  [0x0#4, 0x8#4, 0x8#4, 0x8#4, 0x9#4, 0xA#4, 0xC#4, 0x8#4, 0x9#4, 0xD#4, 0xB#4, 0x8#4, 0x9#4, 0x9#4, 0x9#4, 0x1#4] ++
  [0xE#4, 0xA#4, 0xB#4, 0x8#4, 0xA#4, 0xA#4, 0x2#4, 0xA#4, 0xB#4, 0x3#4, 0xB#4, 0xB#4, 0x9#4, 0xA#4, 0xB#4, 0xF#4] ++
  [0xE#4, 0xD#4, 0xC#4, 0x8#4, 0xC#4, 0x4#4, 0xC#4, 0xC#4, 0xD#4, 0xD#4, 0x5#4, 0xD#4, 0x9#4, 0xD#4, 0xC#4, 0xF#4] ++
  [0xE#4, 0xE#4, 0xE#4, 0x6#4, 0xE#4, 0xA#4, 0xC#4, 0xF#4, 0xE#4, 0xD#4, 0xB#4, 0xF#4, 0x7#4, 0xF#4, 0xF#4, 0xF#4]

/-- DECODE as a direct table of 128 entries from the word with bit 7 left out (R22, R94). The default
of the look-up is never reached: the index is below 128 and the table has 128 entries. -/
def decodeByTable (c : Codeword) : Nibble :=
  (decodeRowsLow ++ decodeRowsHigh).getD (c.toNat % 128) 0x0#4

end Sys2Proof.Machine
end

