-- ==== Sys2Proof/Config.lean ====
section
/-! DEFINITION. What is fixed for the hardware, and what the spec leaves open as a parameter
(spec/00_scope.md R5). The code parameters are constants, not arguments: a configurable code is a
non-goal. The open parameters of the environment are types here and arguments where they are used.
No free value stands here: every output is a function of its input (R9), for every input. -/

namespace Sys2Proof.Config

/-- n: meaningful bits of a codeword (R5). -/
def blockLength : Nat := 7

/-- k: data bits, the width of a nibble (R5). -/
def dataLength : Nat := 4

/-- r: parity bits, the width of a syndrome (R5). -/
def parityLength : Nat := 3

/-- W: width of the stored codeword (R5). -/
def storedWidth : Nat := 8

/-- Depth of `syndrome_rom`, 2^r (R5). -/
def romDepth : Nat := 8

/-- ODD_TAIL_POLICY (R5, spec/20_memory.md R37, spec/92_eei_decisions.md D14): what a decoding driver
does with the nibble of a codeword that has no partner. `none` is: the driver refuses the stream.
`some bs` is: it ends its output with the bytes `bs`. OPEN, so it is an argument of the driver. -/
abbrev OddTailPolicy := Nibble → Option (List Byte)

/-- D14's first example of a policy: the unpaired codeword is dropped. -/
def dropOddTail : OddTailPolicy := fun _ => some []

/-- D14's second example: the stream is refused. -/
def refuseOddTail : OddTailPolicy := fun _ => none

/-- `flip_index`, the corruptor's draw in 0..7 (spec/42_environment.md R115, R116, D16): a free
argument wherever it is used, under no law. -/
abbrev FlipIndex := Fin 8

end Sys2Proof.Config
end

