-- ==== Sys2Proof/Machine/Environment.lean ====
section
/-! DEFINITION. The environment's contracts (spec/42_environment.md R110 to R118): the driver that splits
bytes and joins nibbles, and the corruptor. They are compositions around the hardware, not operations of
it (spec/30_encoding.md R63). Files, console output and buffering are no part of them (R114). -/

namespace Sys2Proof.Machine

/-! ## One byte -/

/-- `b[7:4]` (R111). -/
def highNibble (b : Byte) : Nibble := b.extractLsb' 4 4

/-- `b[3:0]` (R111). -/
def lowNibble (b : Byte) : Nibble := b.extractLsb' 0 4

/-- `(high_nibble << 4) | low_nibble` (R112). -/
def joinNibbles (hi lo : Nibble) : Byte := (hi.setWidth 8 <<< 4) ||| lo.setWidth 8

/-- ENCODE_BYTE: the codeword of the high nibble, then that of the low nibble (R111). -/
def encodeByte (b : Byte) : Codeword × Codeword :=
  (encodeNibble (highNibble b), encodeNibble (lowNibble b))

/-- DECODE_PAIR: the first codeword gives the high nibble, the second the low nibble (R112). -/
def decodePair (c0 c1 : Codeword) : Byte := joinNibbles (decodeCodeword c0) (decodeCodeword c1)

/-- CORRUPT: exactly the one bit at the index is inverted, bit 7 included (R115). -/
def corrupt (c : Codeword) (flipIndex : Config.FlipIndex) : Codeword := c ^^^ (1#8 <<< flipIndex.val)

/-! ## Streams -/

/-- The nibbles of a byte stream, the high nibble of a byte before its low nibble (R111,
spec/20_memory.md R35). -/
def nibblesOf (bs : List Byte) : List Nibble :=
  match bs with
  | []      => []
  | b :: bs => highNibble b :: lowNibble b :: nibblesOf bs

/-- The encoding driver's stream: two codeword bytes for each source byte, in order (R111, R35). -/
def encodeStream (bs : List Byte) : List Codeword :=
  match bs with
  | []      => []
  | b :: bs => (encodeByte b).1 :: (encodeByte b).2 :: encodeStream bs

/-- Bytes from a stream of nibbles taken two at a time; what becomes of a last nibble without a partner
is the policy's to say (R112, R37). -/
def joinStream (odd : Config.OddTailPolicy) (ns : List Nibble) : Option (List Byte) :=
  match ns with
  | []             => some []
  | [n]            => odd n
  | hi :: lo :: ns => (joinStream odd ns).map (fun bs => joinNibbles hi lo :: bs)

/-- The decoding driver's stream (R112): codeword bytes consumed two at a time. -/
def decodeStream (odd : Config.OddTailPolicy) (cs : List Codeword) : Option (List Byte) :=
  match cs with
  | []             => some []
  | [c]            => odd (decodeCodeword c)
  | c0 :: c1 :: cs => (decodeStream odd cs).map (fun bs => decodePair c0 c1 :: bs)

/-- A stream with an error pattern put on each codeword byte: any bits may be flipped. Codeword bytes
beyond the patterns arrive as they were sent. -/
def applyErrors (es : List Mask) (cs : List Codeword) : List Codeword :=
  match es, cs with
  | [],      cs      => cs
  | _ :: _,  []      => []
  | e :: es, c :: cs => (c ^^^ e) :: applyErrors es cs

/-- The corruptor over a stream, one draw for each codeword byte; `none` is the environment's choice not
to corrupt that byte (R115, R116, R118). -/
def corruptStream (draws : List (Option Config.FlipIndex)) (cs : List Codeword) : List Codeword :=
  match draws, cs with
  | [],                 cs      => cs
  | _ :: _,             []      => []
  | none :: draws,      c :: cs => c :: corruptStream draws cs
  | some i :: draws,    c :: cs => corrupt c i :: corruptStream draws cs

/-! ## What the driver asks of the machine, and what it reads back (R110, R118, spec/20_memory.md R41)

The order that matters is positional: element i of the result is the function of element i of the input.
The driver may evaluate the elements in any order, and more than once, so long as it places each result at
its position. `order` is the order in which it asks, as positions; `place j` is the instance it uses for
position j, one for all or a different one for each. -/

/-- The elements of a stream in the order the driver asks for them, each with its position. A position
beyond the stream has no element and is not asked for. -/
def schedule {α : Type} (order : List Nat) (xs : List α) : List (Nat × α) :=
  order.filterMap (fun j => xs[j]?.map (fun x => (j, x)))

/-- Results read in the order of asking, placed: element j of a stream of length n is the first result read
for position j. -/
def placeResults {β : Type} (n : Nat) (order : List Nat) (read : List β) : List β :=
  (List.range n).filterMap (fun j => ((order.filter (fun i => i < n)).zip read).lookup j)

/-- The drives that encode a stream of nibbles. -/
def encodeDrives (place : Nat → Nat) (order : List Nat) (ns : List Nibble) : List Drive :=
  (schedule order ns).map (fun p => driveOf (.encode (place p.1) p.2))

/-- The drives that decode a stream of codewords. -/
def decodeDrives (place : Nat → Nat) (order : List Nat) (cs : List Codeword) : List Drive :=
  (schedule order cs).map (fun p => driveOf (.decode (place p.1) p.2))

/-- The codewords among the results, in the order they were read. -/
def codewordsRead (es : List Evaluation) : List Codeword :=
  es.filterMap (fun e => match e.out with | .codeword c => some c | .nibble _ => none)

/-- The nibbles among the results, in the order they were read. -/
def nibblesRead (es : List Evaluation) : List Nibble :=
  es.filterMap (fun e => match e.out with | .codeword _ => none | .nibble n => some n)

end Sys2Proof.Machine
end

