-- ==== Sys2Proof/Machine/Ports.lean ====
section
/-! DEFINITION. The nets of each instance, read off the words its input port holds: the output ports
(spec/10_state.md R17, R19) and the internal nets (R18, R19). All are combinational: "The outputs are
defined whenever the inputs are" (R23), so each is `none` exactly when the port is not driven. The internal
nets are named so that statements can speak of them; the environment cannot observe them. -/

namespace Sys2Proof.Machine

/-! ## `hamming_7_4_encoder` -/

/-- Input port `nibble_in` of encoder instance k. -/
def State.nibblePort (s : State) (k : Nat) : Option Nibble := heldOn k s.nibbleIn
/-- Net d1. -/
def State.netD1 (s : State) (k : Nat) : Option Bit := (s.nibblePort k).map nibbleD1
/-- Net d2. -/
def State.netD2 (s : State) (k : Nat) : Option Bit := (s.nibblePort k).map nibbleD2
/-- Net d3. -/
def State.netD3 (s : State) (k : Nat) : Option Bit := (s.nibblePort k).map nibbleD3
/-- Net d4. -/
def State.netD4 (s : State) (k : Nat) : Option Bit := (s.nibblePort k).map nibbleD4
/-- Net p1. -/
def State.netP1 (s : State) (k : Nat) : Option Bit := (s.nibblePort k).map parityP1
/-- Net p2. -/
def State.netP2 (s : State) (k : Nat) : Option Bit := (s.nibblePort k).map parityP2
/-- Net p3. -/
def State.netP3 (s : State) (k : Nat) : Option Bit := (s.nibblePort k).map parityP3
/-- Output port `codeword_out` of encoder instance k. -/
def State.codewordOut (s : State) (k : Nat) : Option Codeword := (s.nibblePort k).map encodeNibble

/-! ## `hamming_7_4_decoder` -/

/-- Input port `codeword_in` of decoder instance k. -/
def State.codewordPort (s : State) (k : Nat) : Option Codeword := heldOn k s.codewordIn
/-- Net s1. -/
def State.netS1 (s : State) (k : Nat) : Option Bit := (s.codewordPort k).map checkS1
/-- Net s2. -/
def State.netS2 (s : State) (k : Nat) : Option Bit := (s.codewordPort k).map checkS2
/-- Net s3. -/
def State.netS3 (s : State) (k : Nat) : Option Bit := (s.codewordPort k).map checkS3
/-- Net `syndrome`, the address of `syndrome_rom`. -/
def State.netSyndrome (s : State) (k : Nat) : Option Syndrome := (s.codewordPort k).map syndrome
/-- Net `mask`, the output of `syndrome_rom`. -/
def State.netMask (s : State) (k : Nat) : Option Mask := (s.netSyndrome k).map romWord
/-- Net `corrected`. -/
def State.netCorrected (s : State) (k : Nat) : Option Codeword := (s.codewordPort k).map corrected
/-- Output port `nibble_out` of decoder instance k. -/
def State.nibbleOut (s : State) (k : Nat) : Option Nibble := (s.codewordPort k).map decodeCodeword

end Sys2Proof.Machine
end

