-- ==== Sys2Proof/Safety.lean ====
section
/-! DEFINITION. What counts as a right result and a sound state, in terms that do not mention how the codec
computes: the table of valid codewords and the number of differing bits. -/

namespace Sys2Proof.Machine

/-- The 16 valid codewords (spec/30_encoding.md R54), in the order of their nibbles. -/
def validCodewords : List Codeword :=
  [0x00#8, 0x0F#8, 0x16#8, 0x19#8, 0x25#8, 0x2A#8, 0x33#8, 0x3C#8,
   0x43#8, 0x4C#8, 0x55#8, 0x5A#8, 0x66#8, 0x69#8, 0x70#8, 0x7F#8]

/-- A valid codeword (spec/00_scope.md glossary, R54). -/
abbrev isValid (c : Codeword) : Prop := c ∈ validCodewords

/-- How many of the seven meaningful bits, 6 to 0, are set (R96: bit 7 is not counted). -/
def meaningfulWeight (e : BitVec 8) : Nat := ((List.range 7).filter (fun i => e.getLsbD i)).length

/-- In how many of bits 6 to 0 two words differ. -/
def meaningfulDistance (c d : Codeword) : Nat := meaningfulWeight (c ^^^ d)

/-- The guarantee a recorded evaluation meets. ENCODE: the valid codeword whose data bits are the nibble
(spec/40_encoder.md R72). DECODE: the nibble of a valid codeword at most one meaningful bit away
(spec/41_decoder.md R96). -/
def Evaluation.sound (e : Evaluation) : Prop :=
  match e.op, e.out with
  | .encode _ n, .codeword c => isValid c ∧ dataField c = n
  | .decode _ c, .nibble n   => ∃ v, isValid v ∧ dataField v = n ∧ meaningfulDistance c v ≤ 1
  | .encode _ _, .nibble _   => False
  | .decode _ _, .codeword _ => False

/-- The nibble most lately put on encoder instance k, by the record. -/
def lastNibble (k : Nat) (es : List Evaluation) : Option Nibble :=
  es.foldl (fun last e => match e.op with
    | .encode j n => if j = k then some n else last
    | .decode _ _ => last) none

/-- The codeword most lately put on decoder instance k, by the record. -/
def lastCodeword (k : Nat) (es : List Evaluation) : Option Codeword :=
  es.foldl (fun last e => match e.op with
    | .encode _ _ => last
    | .decode j c => if j = k then some c else last) none

/-- The invariant of the model: the port lists are in canonical form; every result written down meets the
codec's guarantee; and every port still holds the word of the last evaluation asked of it (the environment
holds its words, spec/70_reset_and_hazards.md R149). -/
structure State.Inv (s : State) : Prop where
  nibbleWf   : portsWf s.nibbleIn = true
  codewordWf : portsWf s.codewordIn = true
  recorded   : ∀ e ∈ s.record, e.sound
  nibbleHeld : ∀ k, s.nibblePort k = lastNibble k s.record
  wordHeld   : ∀ k, s.codewordPort k = lastCodeword k s.record

/-- Instruction i, done in state s, answers a next state in which o is the one result written down more. -/
def Answers (i : Instr) (s : State) (o : Output) : Prop :=
  ∃ t, exec i s = .next t ∧ t.record = s.record ++ [⟨i, o⟩]

/-- The output word of an instruction's evaluation (R9). -/
def resultOf (i : Instr) : Output :=
  match i with
  | .encode _ n => .codeword (encodeNibble n)
  | .decode _ c => .nibble (decodeCodeword c)

/-- Of the 112 cases of one flipped meaningful bit, those in which a decoder that flips `maskOf k` for
syndrome k gives a wrong nibble (spec/41_decoder.md R98), the syndrome taken as `packing` packs it. -/
def wrongSingleErrors (packing : Syndrome → Nat) (maskOf : Nat → Mask) : Nat :=
  ((List.range 16).flatMap (fun n => (List.range 7).filter (fun p =>
    let c := encodeNibble (BitVec.ofNat 4 n) ^^^ (1#8 <<< p)
    dataField (c ^^^ maskOf (packing (syndrome c))) != BitVec.ofNat 4 n))).length

/-- The packing in the opposite order, `s3 s2 s1` (R98: "under either packing order"). -/
def oppositePacking (a : Syndrome) : Nat := 4 * (tap a 0).toNat + 2 * (tap a 1).toNat + (tap a 2).toNat

/-- The source's formula of its step 2 (R98), recorded and not used. -/
def shiftUpFormula (k : Nat) : Mask := if k = 0 then 0x00#8 else 1#8 <<< (k - 1)

/-- The source's formula of its step 3 (R98), recorded and not used. -/
def shiftDownFormula (k : Nat) : Mask := if k = 0 then 0x00#8 else 1#8 <<< (8 - k)

end Sys2Proof.Machine
end

