-- ==== Sys2Proof/Certificates/Slice0/Obligations.lean ====
section
/-! DEFINITION. The statements for the provers. Each docstring names the rule of the spec it formalises. -/

open Sys2Proof Sys2Proof.Machine

/-! ## What each operation answers -/

/-- R70: ENCODE completes in every state, and `codeword_out` is bit 7 zero, bits 6 to 3 the nibble, bits 2
to 0 the three parities. -/
def Obligations.EncodeAnswersCodeword : Prop :=
  ∀ (k : Nat) (n : Nibble) (s : State), ∃ (t : State) (c : Codeword),
    exec (.encode k n) s = .next t ∧
    t.nibblePort k = some n ∧
    t.codewordOut k = some c ∧
    t.record = s.record ++ [⟨.encode k n, .codeword c⟩] ∧
    c.getLsbD 7 = false ∧
    (∀ i < 4, c.getLsbD (i + 3) = n.getLsbD i) ∧
    c.getLsbD 2 = (n.getLsbD 2 ^^ n.getLsbD 1 ^^ n.getLsbD 0) ∧
    c.getLsbD 1 = (n.getLsbD 3 ^^ n.getLsbD 1 ^^ n.getLsbD 0) ∧
    c.getLsbD 0 = (n.getLsbD 3 ^^ n.getLsbD 2 ^^ n.getLsbD 0)

/-- R85: DECODE completes in every state and on every word, by the four steps: the checks, the word of the
table at the syndrome, the XOR, bits 6 to 3. -/
def Obligations.DecodeAnswersNibble : Prop :=
  ∀ (k : Nat) (c : Codeword) (s : State), ∃ (t : State) (a : Syndrome) (m : Mask) (d : Codeword) (r : Nibble),
    exec (.decode k c) s = .next t ∧
    t.codewordPort k = some c ∧
    t.netSyndrome k = some a ∧
    a.getLsbD 2 = (c.getLsbD 5 ^^ c.getLsbD 4 ^^ c.getLsbD 3 ^^ c.getLsbD 2) ∧
    a.getLsbD 1 = (c.getLsbD 6 ^^ c.getLsbD 4 ^^ c.getLsbD 3 ^^ c.getLsbD 1) ∧
    a.getLsbD 0 = (c.getLsbD 6 ^^ c.getLsbD 5 ^^ c.getLsbD 3 ^^ c.getLsbD 0) ∧
    t.netMask k = some m ∧
    [0x00#8, 0x01#8, 0x02#8, 0x40#8, 0x04#8, 0x20#8, 0x10#8, 0x08#8][a.toNat]? = some m ∧
    t.netCorrected k = some d ∧
    d = c ^^^ m ∧
    t.nibbleOut k = some r ∧
    (∀ i < 4, r.getLsbD i = d.getLsbD (i + 3)) ∧
    t.record = s.record ++ [⟨.decode k c, .nibble r⟩]

/-- R73: ENCODE never stops, and nothing but its own encoder instance's ports changes: every other encoder
instance, every decoder instance, the evaluations still to be done and the results already read are as
before, and one result is added. -/
def Obligations.EncodeFrame : Prop :=
  ∀ (k : Nat) (n : Nibble) (s : State), ∃ (t : State) (o : Output),
    exec (.encode k n) s = .next t ∧
    (∀ j, j ≠ k → t.nibblePort j = s.nibblePort j ∧ t.codewordOut j = s.codewordOut j) ∧
    (∀ j, t.codewordPort j = s.codewordPort j ∧ t.nibbleOut j = s.nibbleOut j ∧
      t.netSyndrome j = s.netSyndrome j ∧ t.netMask j = s.netMask j ∧ t.netCorrected j = s.netCorrected j) ∧
    t.codewordIn = s.codewordIn ∧
    t.pending = s.pending ∧
    t.record = s.record ++ [⟨.encode k n, o⟩]

/-- R93: the same of DECODE: it never stops, and nothing but its own decoder instance's ports changes. -/
def Obligations.DecodeFrame : Prop :=
  ∀ (k : Nat) (c : Codeword) (s : State), ∃ (t : State) (o : Output),
    exec (.decode k c) s = .next t ∧
    (∀ j, j ≠ k → t.codewordPort j = s.codewordPort j ∧ t.nibbleOut j = s.nibbleOut j ∧
      t.netSyndrome j = s.netSyndrome j ∧ t.netMask j = s.netMask j ∧ t.netCorrected j = s.netCorrected j) ∧
    (∀ j, t.nibblePort j = s.nibblePort j ∧ t.codewordOut j = s.codewordOut j) ∧
    t.nibbleIn = s.nibbleIn ∧
    t.pending = s.pending ∧
    t.record = s.record ++ [⟨.decode k c, o⟩]

/-- R11: the output of an evaluation is a function of its input alone, whatever was evaluated before; and
to evaluate the same word once more changes no port. -/
def Obligations.EvaluationForgets : Prop :=
  ∀ i : Instr, ∃ o, ∀ s : State, Answers i s o ∧
    ∀ t u, exec i s = .next t → exec i t = .next u →
      u.nibbleIn = t.nibbleIn ∧ u.codewordIn = t.codewordIn ∧ u.record = t.record ++ [⟨i, o⟩]

/-! ## The step and the run -/

/-- A step runs the decoded instruction: when the word the environment puts next on a port decodes to a
well-formed instruction, the step is that instruction, done with that word taken off the list. -/
def Obligations.StepRunsTheDecoded : Prop :=
  ∀ (s : State) (d : Drive) (ds : List Drive) (i : Instr),
    s.pending = d :: ds → decode d.port [d.word] = .ok (i, []) → WellFormed i = true →
    step s = exec i (s.withPending ds)

/-- At the end of the environment's list a step changes nothing. The model's own choice (log entry 6); the
spec says that nothing is pending at the end (R118). -/
def Obligations.StepAtTheEnd : Prop :=
  ∀ s : State, s.pending = [] → step s = .next s

/-- R125, R127: no fault and no refusal: every evaluation in every state answers its output word; and a run of
any length from any state answers a state. That a run longer than the environment's list answers, too,
rests on the step past the end of the list: the model's own choice (DESIGN CHOICE, log entry 6). -/
def Obligations.NothingStops : Prop :=
  (∀ (i : Instr) (s : State), ∃ o, Answers i s o) ∧
  (∀ (k : Nat) (s : State), ∃ t : State, Host.Core.run Sys2Proof.core k s = .next t)

/-- R118: as many steps as there are evaluations to do leave none, and the results are those of the
evaluations, each at its position; steps beyond the end change nothing (the model's choice, log entry 6). -/
def Obligations.RunAnswersTheList : Prop :=
  ∀ s : State, ∃ t : State,
    (∀ k, Host.Core.run Sys2Proof.core (s.pending.length + k) s = .next t) ∧
    t.pending = [] ∧
    t.record = s.record ++ s.pending.map (fun d => ⟨instrOf d, resultOf (instrOf d)⟩)

/-- R40 (a) and (c): two schedules of the same evaluations, from any two states, yield the same multiset of
(input, output) pairs. -/
def Obligations.ScheduleDoesNotMatter : Prop :=
  ∀ (s u : State) (ds es : List Drive), ds.Perm es → ∃ (t v : State) (fs gs : List Evaluation),
    Host.Core.run Sys2Proof.core ds.length (s.withPending ds) = .next t ∧
    Host.Core.run Sys2Proof.core es.length (u.withPending es) = .next v ∧
    t.record = s.record ++ fs ∧ v.record = u.record ++ gs ∧ fs.Perm gs

/-- R16, R40 (b): evaluations on two different ports, in either order, leave the ports the same and give
the same two results. The premises are the model's canonical form of its port lists, which `StepKeepsInv`
keeps. -/
def Obligations.InstancesDoNotInteract : Prop :=
  ∀ (i j : Instr) (s : State), portsWf s.nibbleIn = true → portsWf s.codewordIn = true →
    portOf i ≠ portOf j → ∃ (a b t u : State) (oi oj : Output),
      exec i s = .next a ∧ exec j a = .next t ∧
      exec j s = .next b ∧ exec i b = .next u ∧
      t.nibbleIn = u.nibbleIn ∧ t.codewordIn = u.codewordIn ∧ t.pending = u.pending ∧
      t.record = s.record ++ [⟨i, oi⟩, ⟨j, oj⟩] ∧ u.record = s.record ++ [⟨j, oj⟩, ⟨i, oi⟩]

/-- R40 (b), R41: words put on any number of different instances at once are all answered at once, each output
as it would be alone, and the instances of the other block are untouched. -/
def Obligations.InstancesAnswerTogether : Prop :=
  (∀ (ps : List (Nat × Nibble)) (s : State), (ps.map Prod.fst).Nodup →
    (∀ p ∈ ps, (s.driveNibbles ps).codewordOut p.1 = some (encodeNibble p.2)) ∧
    (∀ k, k ∉ ps.map Prod.fst → (s.driveNibbles ps).codewordOut k = s.codewordOut k) ∧
    (∀ k, (s.driveNibbles ps).nibbleOut k = s.nibbleOut k)) ∧
  (∀ (ps : List (Nat × Codeword)) (s : State), (ps.map Prod.fst).Nodup →
    (∀ p ∈ ps, (s.driveCodewords ps).nibbleOut p.1 = some (decodeCodeword p.2)) ∧
    (∀ k, k ∉ ps.map Prod.fst → (s.driveCodewords ps).nibbleOut k = s.nibbleOut k) ∧
    (∀ k, (s.driveCodewords ps).codewordOut k = s.codewordOut k))

/-- Every step keeps the invariant: port lists in canonical form, every result written down within the
codec's guarantee, every port still holding the word last put on it. The last, the clauses nibbleHeld and
wordHeld, is the model's own choice (DESIGN CHOICE, log entry 5): the spec has the environment hold a word
only until the output has been read (R149). -/
def Obligations.StepKeepsInv : Prop :=
  ∀ s t : State, s.Inv → step s = .next t → t.Inv

/-- The invariant holds at the start. The start is the model's: that no port holds a word then is its own
choice (DESIGN CHOICE, log entry 4), and so are the clauses on held words (log entry 5); the spec has no
reset state (R145). -/
def Obligations.ResetInv : Prop := State.reset.Inv

/-- R145 in the model: at the start no port of any instance is driven, so no output has a value; nothing is
asked for, nothing has been read, and a step changes nothing (the model's choice, log entries 4 and 6). -/
def Obligations.ResetIsEmpty : Prop :=
  (∀ k, State.reset.nibblePort k = none ∧ State.reset.codewordPort k = none ∧
    State.reset.codewordOut k = none ∧ State.reset.nibbleOut k = none) ∧
  State.reset.pending = [] ∧ State.reset.record = [] ∧ step State.reset = .next State.reset

/-- An output is defined exactly when its input is, in every state. "Whenever the input is" is R23; that an
output has no value while the port is not driven is the model's own choice (DESIGN CHOICE, log entry 4):
the spec gives an undriven input no meaning (R153). -/
def Obligations.OutputsDefinedWithInputs : Prop :=
  ∀ (s : State) (k : Nat),
    ((s.codewordOut k).isSome ↔ (s.nibblePort k).isSome) ∧ ((s.nibbleOut k).isSome ↔ (s.codewordPort k).isSome)

/-! ## Words, ports and instructions -/

/-- Words written out from the spec's formats are read as the operations they stand for: `abcd` = 1101 and
0100 on an encoder, `uabcdxyz` = 00100001, 11101001 and 10000000 on a decoder. -/
def Obligations.SpecWordsDecode : Prop :=
  decode ⟨.encoder, 0⟩ [0b00001101#8] = .ok (.encode 0 0xD#4, []) ∧
  decode ⟨.encoder, 3⟩ [0b00000100#8] = .ok (.encode 3 0x4#4, []) ∧
  decode ⟨.decoder, 0⟩ [0b00100001#8] = .ok (.decode 0 0x21#8, []) ∧
  decode ⟨.decoder, 2⟩ [0b11101001#8, 0b10000000#8] = .ok (.decode 2 0xE9#8, [0x80#8])

/-- Decoding the words of any list of instructions on one port gives the instructions back, with every
operand; and every list of words on a port is the words of the instructions it decodes to, the four bits
an encoder has no port for apart (R74). -/
def Obligations.DecodeEncodeAgree : Prop :=
  (∀ (p : Port) (is : List Instr), (∀ i ∈ is, portOf i = p) → decodeAll p (is.flatMap encode) = is) ∧
  (∀ (k : Nat) (ws : List Byte), (decodeAll ⟨.decoder, k⟩ ws).flatMap encode = ws) ∧
  (∀ (k : Nat) (ws : List Byte), (decodeAll ⟨.encoder, k⟩ ws).flatMap encode = ws.map (fun w => w &&& 0x0F#8)) ∧
  (∀ (p : Port) (w : Byte) (ws : List Byte), decode p (w :: ws) = .ok (decodeWord p w, ws) ∧
    portOf (decodeWord p w) = p)

/-- A bare table word that some row admits is run by the very next step. Which row it is read as is the
model's choice where both admit it (log entry 7). -/
def Obligations.TableWordRuns : Prop :=
  (∀ (s : State) (nbits w : Nat) (i : Instr), decodeTableWord nbits w = some i →
    step (s.withFetchWord nbits w) = exec i s) ∧
  (∀ n : Nibble, decodeTableWord 4 n.toNat = some (.encode 0 n)) ∧
  (∀ c : Codeword, 16 ≤ c.toNat → decodeTableWord 8 c.toNat = some (.decode 0 c))

/-- R74: a byte put on an encoder's port is encoded as its low four bits, and is never rejected; and so for
an argument of any width. -/
def Obligations.EncoderMasksItsArgument : Prop :=
  (∀ (k : Nat) (w : Byte) (s : State) (ds : List Drive), ∃ t,
    step (s.withPending (⟨⟨.encoder, k⟩, w⟩ :: ds)) = .next t ∧
    step (s.withPending (⟨⟨.encoder, k⟩, w &&& 0x0F#8⟩ :: ds)) = .next t ∧
    t.codewordOut k = some (encodeNibble (w.setWidth 4))) ∧
  (∀ (m : Nat) (v : BitVec m), encodeWide v = encodeNibble (v.setWidth 4))

/-- R60: no input word of either port is refused, and the 256 words of a decoder are 16 valid codewords,
112 words with bit 7 clear one meaningful bit away from exactly one valid codeword, and 128 with bit 7 set. -/
def Obligations.EveryWordIsLegal : Prop :=
  (∀ (k : Nat) (n : Nibble) (s : State), ∃ c, Answers (.encode k n) s (.codeword c)) ∧
  (∀ (k : Nat) (c : Codeword) (s : State), ∃ n, Answers (.decode k c) s (.nibble n)) ∧
  ((List.range 256).filter (fun w => decide (isValid (BitVec.ofNat 8 w)))).length = 16 ∧
  ((List.range 128).filter (fun w => decide (¬ isValid (BitVec.ofNat 8 w)) &&
    (validCodewords.filter (fun v => meaningfulDistance (BitVec.ofNat 8 w) v == 1)).length == 1)).length = 112

/-! ## The code -/

/-- R71: in every ENCODE output each parity bit is even parity over its subset together with itself. -/
def Obligations.ParitiesAreEven : Prop :=
  ∀ (k : Nat) (n : Nibble) (s : State), ∃ c, Answers (.encode k n) s (.codeword c) ∧
    (c.getLsbD 2 ^^ c.getLsbD 5 ^^ c.getLsbD 4 ^^ c.getLsbD 3) = false ∧
    (c.getLsbD 1 ^^ c.getLsbD 6 ^^ c.getLsbD 4 ^^ c.getLsbD 3) = false ∧
    (c.getLsbD 0 ^^ c.getLsbD 6 ^^ c.getLsbD 5 ^^ c.getLsbD 3) = false

/-- R72: ENCODE's output has bit 7 zero, is at most 0x7F, and is the nibble's row of the table of valid
codewords. -/
def Obligations.EncodeGivesTheTableRow : Prop :=
  ∀ (k : Nat) (n : Nibble) (s : State), ∃ c, Answers (.encode k n) s (.codeword c) ∧
    c.getLsbD 7 = false ∧ c.toNat ≤ 0x7F ∧ validCodewords[n.toNat]? = some c

/-- R33: the value of a codeword as a byte is 64·d1 + 32·d2 + 16·d3 + 8·d4 + 4·p1 + 2·p2 + p3. -/
def Obligations.CodewordHasItsWeights : Prop :=
  ∀ n : Nibble, (encodeNibble n).toNat = encodeByWeights n

/-- R75 (a) to (f): ENCODE is systematic, injective and linear, two of its outputs differ in three bits at
least, the complement of a nibble has the complement of its codeword, and every output has syndrome 0. -/
def Obligations.EncodeProperties : Prop :=
  (∀ n, dataField (encodeNibble n) = n ∧ encodeNibble n >>> 3 = n.setWidth 8) ∧
  (∀ a b, encodeNibble a = encodeNibble b → a = b) ∧
  (∀ a b, encodeNibble (a ^^^ b) = encodeNibble a ^^^ encodeNibble b) ∧ encodeNibble 0#4 = 0#8 ∧
  (∀ a b, a ≠ b → 3 ≤ ((List.range 8).filter (fun i => (encodeNibble a ^^^ encodeNibble b).getLsbD i)).length) ∧
  (∀ n, encodeNibble (n ^^^ 0xF#4) = encodeNibble n ^^^ 0x7F#8) ∧
  (∀ n, syndrome (encodeNibble n) = 0#3)

/-- R76: the table, the linear map and the form per output bit equal ENCODE on every input. -/
def Obligations.EncodeFormsAgree : Prop :=
  ∀ n : Nibble, encodeByTable n = encodeNibble n ∧ encodeByGenerator n = encodeNibble n ∧
    (encodeNibble n).getLsbD 7 = false ∧
    (encodeNibble n).getLsbD 6 = n.getLsbD 3 ∧ (encodeNibble n).getLsbD 5 = n.getLsbD 2 ∧
    (encodeNibble n).getLsbD 4 = n.getLsbD 1 ∧ (encodeNibble n).getLsbD 3 = n.getLsbD 0 ∧
    (encodeNibble n).getLsbD 2 = (n.getLsbD 2 ^^ n.getLsbD 1 ^^ n.getLsbD 0) ∧
    (encodeNibble n).getLsbD 1 = (n.getLsbD 3 ^^ n.getLsbD 1 ^^ n.getLsbD 0) ∧
    (encodeNibble n).getLsbD 0 = (n.getLsbD 3 ^^ n.getLsbD 2 ^^ n.getLsbD 0)

/-- R87: the syndrome net of a codeword with an error on it is that of the error alone, in every state, and
the error's syndrome is linear; a lone flip of bits 0 to 7 gives 1, 2, 4, 7, 6, 5, 3, 0, and no flip gives 0. -/
def Obligations.SyndromeNamesTheFlippedBit : Prop :=
  (∀ (k : Nat) (n : Nibble) (e : Mask) (s t : State),
    exec (.decode k (encodeNibble n ^^^ e)) s = .next t → t.netSyndrome k = some (syndrome e)) ∧
  (∀ d e : Mask, syndrome (d ^^^ e) = syndrome d ^^^ syndrome e) ∧
  syndrome 0x00#8 = 0#3 ∧
  (List.range 8).map (fun i => syndrome (1#8 <<< i)) = [1#3, 2#3, 4#3, 7#3, 6#3, 5#3, 3#3, 0#3]

/-- R89: the eight words; the word at address k ≠ 0 has one bit set, and its lone flip gives syndrome k;
the reduced words are bits 6 to 3 of the words. -/
def Obligations.RomHoldsTheMasks : Prop :=
  syndromeRom.toList = [0x00#8, 0x01#8, 0x02#8, 0x40#8, 0x04#8, 0x20#8, 0x10#8, 0x08#8] ∧
  romWord 0#3 = 0x00#8 ∧
  (∀ a : Syndrome, a ≠ 0#3 → syndrome (romWord a) = a ∧ ∃ i < 7, romWord a = 1#8 <<< i) ∧
  (∀ a : Syndrome, reducedRom.toList[a.toNat]? = some (dataField (romWord a)))

/-- R31: every address of the table is reached, by the codewords 0x00 to 0x07. -/
def Obligations.EveryRomWordIsReached : Prop :=
  ∀ (k : Nat) (a : Syndrome) (s : State), ∃ t,
    exec (.decode k (a.setWidth 8)) s = .next t ∧ t.netSyndrome k = some a ∧ t.netMask k = some (romWord a)

/-- R90: the corrected word is the received word where the syndrome is 0, and otherwise has exactly one of
bits 6 to 0 inverted; bit 7 passes; its low seven bits are those of a valid codeword. -/
def Obligations.CorrectionInvertsAtMostOneBit : Prop :=
  ∀ (k : Nat) (c : Codeword) (s : State), ∃ (t : State) (d : Codeword) (m : Mask),
    exec (.decode k c) s = .next t ∧ t.netCorrected k = some d ∧ t.netMask k = some m ∧
    d = c ^^^ m ∧ d.getLsbD 7 = c.getLsbD 7 ∧
    meaningfulDistance c d = (if t.netSyndrome k = some 0#3 then 0 else 1) ∧
    isValid (d &&& 0x7F#8) ∧ syndrome d = 0#3

/-- R92, R22: the closed form in gates, the reduced ROM and the direct table equal DECODE on all 256 words;
and the syndrome is also the received parities against those recomputed, and the rows of H (R86). -/
def Obligations.DecodeFormsAgree : Prop :=
  ∀ c : Codeword, decodeByGates c = decodeCodeword c ∧ decodeByReducedRom c = decodeCodeword c ∧
    decodeByTable c = decodeCodeword c ∧
    syndromeByReencoding c = syndrome c ∧ syndromeByCheckMatrix c = syndrome c

/-- R94: bit 7 of a received word does not influence `nibble_out`. -/
def Obligations.DecodeIgnoresBit7 : Prop :=
  ∀ (k : Nat) (c : Codeword) (s : State), ∃ n,
    Answers (.decode k c) s (.nibble n) ∧ Answers (.decode k (c ^^^ 0x80#8)) s (.nibble n) ∧
    Answers (.decode k (c &&& 0x7F#8)) s (.nibble n)

/-- R95: what an encoder gives, a decoder takes back, from every state and on any two instances. -/
def Obligations.RoundTrip : Prop :=
  ∀ (k j : Nat) (n : Nibble) (s : State), ∃ (t : State) (c : Codeword),
    exec (.encode k n) s = .next t ∧ t.codewordOut k = some c ∧ Answers (.decode j c) t (.nibble n)

/-- R96: a word that differs from an ENCODE output in at most one of bits 6 to 0, bit 7 as it may be, decodes
to the nibble; and for every word there is exactly one nibble whose codeword is within one meaningful bit,
which is what DECODE gives. -/
def Obligations.SingleErrorIsCorrected : Prop :=
  (∀ (k j : Nat) (n : Nibble) (p : Nat) (s : State), p ≤ 7 → ∃ (t : State) (c : Codeword),
    exec (.encode k n) s = .next t ∧ t.codewordOut k = some c ∧
    Answers (.decode j (c ^^^ (1#8 <<< p))) t (.nibble n) ∧
    Answers (.decode j (c ^^^ (1#8 <<< p) ^^^ 0x80#8)) t (.nibble n)) ∧
  (∀ (j : Nat) (c : Codeword) (s : State), ∃ v, isValid v ∧ meaningfulDistance c v ≤ 1 ∧
    (∀ u, isValid u → meaningfulDistance c u ≤ 1 → u = v) ∧ Answers (.decode j c) s (.nibble (dataField v)))

/-- With two or more of bits 6 to 0 flipped the decoder still answers, and what it answers is a nibble that is
not the original: that of the valid codeword nearest to the received word. R97 lets a model state this
determinate value of THIS hardware with the caveat of D8 and U1: it is a decision (DESIGN CHOICE, log
entry 10), and no claim about every implementation of the source. -/
def Obligations.MoreErrorsNeverDecodeRight : Prop :=
  ∀ (k j : Nat) (n : Nibble) (e : Mask) (s : State), 2 ≤ meaningfulWeight e → ∃ (t : State) (c : Codeword) (m : Nibble) (v : Codeword),
    exec (.encode k n) s = .next t ∧ t.codewordOut k = some c ∧
    Answers (.decode j (c ^^^ e)) t (.nibble m) ∧ m ≠ n ∧
    isValid v ∧ dataField v = m ∧ meaningfulDistance (c ^^^ e) v ≤ 1

/-- R98: the source's two formulas agree for no syndrome but 0, and fail in 80 and in 96 of the 112
single-error cases, under either packing of the syndrome; the table fails in none. -/
def Obligations.ShiftFormulasFail : Prop :=
  (∀ k < 8, k ≠ 0 → shiftUpFormula k ≠ shiftDownFormula k) ∧ shiftDownFormula 1 = 0x80#8 ∧
  wrongSingleErrors BitVec.toNat shiftUpFormula = 80 ∧ wrongSingleErrors BitVec.toNat shiftDownFormula = 96 ∧
  wrongSingleErrors oppositePacking shiftUpFormula = 80 ∧ wrongSingleErrors oppositePacking shiftDownFormula = 96 ∧
  wrongSingleErrors BitVec.toNat (fun k => romWord (BitVec.ofNat 3 k)) = 0

/-- R99 (a) to (e). -/
def Obligations.DecodeProperties : Prop :=
  (∀ n : Nibble,
    ((List.range 256).filter (fun w => decodeCodeword (BitVec.ofNat 8 w) == n)).length = 16 ∧
    ((List.range 128).filter (fun w => decodeCodeword (BitVec.ofNat 8 w) == n)).length = 8) ∧
  (∀ c, decodeCodeword (c ^^^ 0x80#8) = decodeCodeword c) ∧
  (∀ c v, isValid v → decodeCodeword (c ^^^ v) = decodeCodeword c ^^^ dataField v) ∧
  (∀ c, ((List.range 4).filter (fun i => (decodeCodeword c ^^^ dataField c).getLsbD i)).length =
    if syndrome c ∈ [3#3, 5#3, 6#3, 7#3] then 1 else 0) ∧
  (∀ c, encodeNibble (decodeCodeword c) = corrected c &&& 0x7F#8) ∧
  decodeCodeword 0x01#8 = 0#4 ∧ decodeCodeword 0x02#8 = 0#4 ∧ decodeCodeword 0x03#8 = 0x8#4

/-! ## The environment -/

/-- R115: the corruptor inverts exactly the bit at the index, of the 8. -/
def Obligations.CorruptorFlipsOneBit : Prop :=
  ∀ (c : Codeword) (f : Config.FlipIndex) (i : Nat), i < 8 →
    (corrupt c f).getLsbD i = (c.getLsbD i ^^ (i == f.val))

/-- R117: whatever bit the corruptor draws, the decoder gives the nibble back. -/
def Obligations.CorruptedCodewordDecodes : Prop :=
  ∀ (k j : Nat) (n : Nibble) (f : Config.FlipIndex) (s : State), ∃ (t : State) (c : Codeword),
    exec (.encode k n) s = .next t ∧ t.codewordOut k = some c ∧
    Answers (.decode j (corrupt c f)) t (.nibble n)

/-- R111: N source bytes give 2N codeword bytes, byte i giving bytes 2i (its high nibble) and 2i + 1 (its low
nibble), each with bit 7 zero. -/
def Obligations.EncodedStreamLayout : Prop :=
  ∀ bs : List Byte,
    (encodeStream bs).length = 2 * bs.length ∧
    (∀ i, (encodeStream bs)[2 * i]? = bs[i]?.map (fun b => encodeNibble (highNibble b)) ∧
      (encodeStream bs)[2 * i + 1]? = bs[i]?.map (fun b => encodeNibble (lowNibble b))) ∧
    (∀ c ∈ encodeStream bs, c.getLsbD 7 = false)

/-- R112, R37: 2N codeword bytes give N bytes, the first of a pair as the high nibble, whatever the policy; a
codeword byte without a partner is left to ODD_TAIL_POLICY. -/
def Obligations.DecodedStreamLayout : Prop :=
  ∀ (odd : Config.OddTailPolicy) (cs : List Codeword), cs.length % 2 = 0 → ∃ bs : List Byte,
    decodeStream odd cs = some bs ∧ 2 * bs.length = cs.length ∧
    (∀ i b, bs[i]? = some b → ∃ c0 c1, cs[2 * i]? = some c0 ∧ cs[2 * i + 1]? = some c1 ∧
      b = (decodeCodeword c0).setWidth 8 <<< 4 ||| (decodeCodeword c1).setWidth 8) ∧
    (∀ c, decodeStream odd (cs ++ [c]) = (odd (decodeCodeword c)).map (fun tail => bs ++ tail))

/-- R113: an encoded stream with errors on its bytes decodes, and nibble j comes back right exactly when at
most one of bits 6 to 0 of codeword byte j was flipped: no error reaches another nibble. -/
def Obligations.StreamErrorsStayConfined : Prop :=
  ∀ (odd : Config.OddTailPolicy) (bs : List Byte) (es : List Mask), ∃ out : List Byte,
    decodeStream odd (applyErrors es (encodeStream bs)) = some out ∧
    out.length = bs.length ∧
    (∀ j < 2 * bs.length,
      (nibblesOf out)[j]? = (nibblesOf bs)[j]? ↔ meaningfulWeight (es.getD j 0x00#8) ≤ 1) ∧
    ((∀ e ∈ es, meaningfulWeight e ≤ 1) → out = bs)

/-- R116, R117 over streams: for every sequence of draws, and of choices not to corrupt, the stream comes
back. -/
def Obligations.CorruptedStreamDecodes : Prop :=
  ∀ (odd : Config.OddTailPolicy) (bs : List Byte) (draws : List (Option Config.FlipIndex)),
    decodeStream odd (corruptStream draws (encodeStream bs)) = some bs

/-- R41: the order that matters is positional. From any state, a driver that asks for the elements of a stream
in any order, each at least once, on any instances, and places each result at its position, has at every
position the function of the input's element there. `order` must name every position; it may name one
twice, and what it names beyond the stream is not asked for. -/
def Obligations.StreamOrderIsPositional : Prop :=
  (∀ (s : State) (place : Nat → Nat) (order : List Nat) (ns : List Nibble),
    (∀ j < ns.length, j ∈ order) → ∃ (t : State) (fs : List Evaluation),
      Host.Core.run Sys2Proof.core (encodeDrives place order ns).length
        (s.withPending (encodeDrives place order ns)) = .next t ∧
      t.record = s.record ++ fs ∧
      (placeResults ns.length order (codewordsRead fs)).length = ns.length ∧
      ∀ i : Nat, (placeResults ns.length order (codewordsRead fs))[i]? = ns[i]?.map encodeNibble) ∧
  (∀ (s : State) (place : Nat → Nat) (order : List Nat) (cs : List Codeword),
    (∀ j < cs.length, j ∈ order) → ∃ (t : State) (fs : List Evaluation),
      Host.Core.run Sys2Proof.core (decodeDrives place order cs).length
        (s.withPending (decodeDrives place order cs)) = .next t ∧
      t.record = s.record ++ fs ∧
      (placeResults cs.length order (nibblesRead fs)).length = cs.length ∧
      ∀ i : Nat, (placeResults cs.length order (nibblesRead fs))[i]? = cs[i]?.map decodeCodeword)

/-- End to end through the machine: from any state, the driver has the nibbles of a byte stream encoded in
any order and by whichever instances it likes, and the codewords it places are the encoded stream; each
then suffers at most one flip among bits 6 to 0; it has them decoded in any order and by whichever
instances it likes, and the nibbles it places join to the source stream. -/
def Obligations.MachineStreamRoundTrip : Prop :=
  ∀ (s : State) (encAt decAt : Nat → Nat) (encOrder decOrder : List Nat) (odd : Config.OddTailPolicy)
    (bs : List Byte) (es : List Mask),
    (∀ e ∈ es, meaningfulWeight e ≤ 1) →
    (∀ j < 2 * bs.length, j ∈ encOrder) → (∀ j < 2 * bs.length, j ∈ decOrder) →
    ∃ (t u : State) (fs gs : List Evaluation) (sent got : List Drive),
      sent = encodeDrives encAt encOrder (nibblesOf bs) ∧
      Host.Core.run Sys2Proof.core sent.length (s.withPending sent) = .next t ∧
      t.record = s.record ++ fs ∧
      placeResults (2 * bs.length) encOrder (codewordsRead fs) = encodeStream bs ∧
      got = decodeDrives decAt decOrder
        (applyErrors es (placeResults (2 * bs.length) encOrder (codewordsRead fs))) ∧
      Host.Core.run Sys2Proof.core got.length (t.withPending got) = .next u ∧
      u.record = t.record ++ gs ∧
      joinStream odd (placeResults (2 * bs.length) decOrder (nibblesRead gs)) = some bs
end

