-- ==== Sys2Proof/Laws/Codec.lean ====
section
/-! SUPPORT. The small lemmas of the codec's definitions: how a tap, a field and a layout read, and the
linearity of the checks. -/

namespace Sys2Proof.Machine

/-- A tap is the bit, as a word of width 1. -/
theorem tap_eq_ofBool {w : Nat} (v : BitVec w) (i : Nat) : tap v i = BitVec.ofBool (v.getLsbD i) := by
  ext j hj
  obtain rfl : j = 0 := by omega
  simp [tap]

/-- A tap of an XOR is the XOR of the taps. -/
theorem tap_xor {w : Nat} (v u : BitVec w) (i : Nat) : tap (v ^^^ u) i = tap v i ^^^ tap u i := by
  ext j hj
  simp [tap]

/-- The data field of an XOR is the XOR of the data fields. -/
theorem dataField_xor (c e : Codeword) : dataField (c ^^^ e) = dataField c ^^^ dataField e := by
  ext j hj
  simp [dataField]

/-- The data field of a codeword of the layout is its four data bits. -/
theorem dataField_layoutCodeword (d1 d2 d3 d4 p1 p2 p3 : Bit) :
    dataField (layoutCodeword d1 d2 d3 d4 p1 p2 p3) = d1 ++ d2 ++ d3 ++ d4 := by
  revert d1 d2 d3 d4 p1 p2 p3; decide

/-- A nibble is its four data bits (spec/30_encoding.md R51). -/
theorem nibble_of_taps (n : Nibble) : nibbleD1 n ++ nibbleD2 n ++ nibbleD3 n ++ nibbleD4 n = n := by
  revert n; decide

/-- The code is systematic (R53). -/
@[simp] theorem dataField_encodeNibble (n : Nibble) : dataField (encodeNibble n) = n := by
  rw [encodeNibble, dataField_layoutCodeword, nibble_of_taps]

/-- Three bits side by side XOR bit by bit. -/
theorem layoutSyndrome_xor (a b c x y z : Bit) :
    layoutSyndrome (a ^^^ x) (b ^^^ y) (c ^^^ z) = layoutSyndrome a b c ^^^ layoutSyndrome x y z := by
  revert a b c x y z; decide

/-- The syndrome is linear in the received word (spec/41_decoder.md R87). -/
theorem syndrome_xor (c e : Codeword) : syndrome (c ^^^ e) = syndrome c ^^^ syndrome e := by
  simp only [syndrome, ← layoutSyndrome_xor]
  congr 1 <;>
  · simp only [checkS1, checkS2, checkS3, codewordD1, codewordD2, codewordD3, codewordD4, codewordP1,
      codewordP2, codewordP3, tap_xor]
    ac_rfl

/-- Every ENCODE output passes the three checks (spec/40_encoder.md R71, R75). -/
@[simp] theorem syndrome_encodeNibble (n : Nibble) : syndrome (encodeNibble n) = 0#3 := by
  revert n; decide

/-- The mask for a codeword with an error on it is the mask for the error alone (R87). -/
theorem flipMask_encodeNibble_xor (n : Nibble) (e : Mask) : flipMask (encodeNibble n ^^^ e) = flipMask e := by
  simp [flipMask, syndrome_xor]

/-- Decoding commutes with adding a codeword, for a codeword of the encoder (R99 b). -/
theorem decodeCodeword_encodeNibble_xor (n : Nibble) (e : Mask) :
    decodeCodeword (encodeNibble n ^^^ e) = n ^^^ decodeCodeword e := by
  simp only [decodeCodeword, corrected, flipMask_encodeNibble_xor, BitVec.xor_assoc]
  rw [dataField_xor, dataField_encodeNibble]

/-- A byte is its two nibbles joined (spec/42_environment.md R112). -/
@[simp] theorem joinNibbles_of_byte (b : Byte) : joinNibbles (highNibble b) (lowNibble b) = b := by
  revert b; decide

@[simp] theorem encodeStream_nil : encodeStream [] = [] := rfl
@[simp] theorem encodeStream_cons (b : Byte) (bs : List Byte) :
    encodeStream (b :: bs) = encodeNibble (highNibble b) :: encodeNibble (lowNibble b) :: encodeStream bs := rfl

/-- The driver's stream is the codeword of each nibble, in order. -/
theorem encodeStream_eq_map (bs : List Byte) : encodeStream bs = (nibblesOf bs).map encodeNibble := by
  induction bs with
  | nil => rfl
  | cons b bs ih => simp [nibblesOf, ih]

end Sys2Proof.Machine
end

