-- ==== Sys2Proof/Laws/PerInstr.lean ====
section
/-! SUPPORT. The statements made for all instructions, one lemma for each constructor. -/

/-- The word of an instruction has no bit beyond the width of its row of the opcode table, and it is on
the port of its row's block (spec/30_encoding.md R59). -/
def Sys2Proof.Laws.RowWidth.Statement (i : Sys2Proof.Instr) : Prop :=
  ∃ r ∈ Sys2Proof.opcodeTable, r.block = (Sys2Proof.portOf i).block ∧
    r.admits r.width (Sys2Proof.wordOf i).toNat = true

theorem Sys2Proof.Laws.RowWidth.encode (k : Nat) (n : Sys2Proof.Nibble) :
    Sys2Proof.Laws.RowWidth.Statement (.encode k n) := by
  refine ⟨⟨"ENCODE", .encoder, 4, 0, 0⟩, by simp [Sys2Proof.opcodeTable], rfl, ?_⟩
  have h := n.isLt
  simp [Sys2Proof.TableRow.admits, Sys2Proof.wordOf]
  omega

theorem Sys2Proof.Laws.RowWidth.decode (k : Nat) (c : Sys2Proof.Codeword) :
    Sys2Proof.Laws.RowWidth.Statement (.decode k c) := by
  refine ⟨⟨"DECODE", .decoder, 8, 0, 0⟩, by simp [Sys2Proof.opcodeTable], rfl, ?_⟩
  have h := c.isLt
  simp [Sys2Proof.TableRow.admits, Sys2Proof.wordOf, h]
end

