-- ==== Sys2Proof/Laws/State.lean ====
section
/-! SUPPORT. One lemma for each field under each update of the state, so that no later proof unfolds a
record update. -/

namespace Sys2Proof.Machine

/-! ## `driveNibble` -/

@[simp] theorem driveNibble_nibbleIn (s : State) (k : Nat) (n : Nibble) :
    (s.driveNibble k n).nibbleIn = holdOn k n s.nibbleIn := rfl
@[simp] theorem driveNibble_codewordIn (s : State) (k : Nat) (n : Nibble) :
    (s.driveNibble k n).codewordIn = s.codewordIn := rfl
@[simp] theorem driveNibble_pending (s : State) (k : Nat) (n : Nibble) :
    (s.driveNibble k n).pending = s.pending := rfl
@[simp] theorem driveNibble_record (s : State) (k : Nat) (n : Nibble) :
    (s.driveNibble k n).record = s.record := rfl

/-! ## `driveCodeword` -/

@[simp] theorem driveCodeword_nibbleIn (s : State) (k : Nat) (c : Codeword) :
    (s.driveCodeword k c).nibbleIn = s.nibbleIn := rfl
@[simp] theorem driveCodeword_codewordIn (s : State) (k : Nat) (c : Codeword) :
    (s.driveCodeword k c).codewordIn = holdOn k c s.codewordIn := rfl
@[simp] theorem driveCodeword_pending (s : State) (k : Nat) (c : Codeword) :
    (s.driveCodeword k c).pending = s.pending := rfl
@[simp] theorem driveCodeword_record (s : State) (k : Nat) (c : Codeword) :
    (s.driveCodeword k c).record = s.record := rfl

/-! ## `note` -/

@[simp] theorem note_nibbleIn (s : State) (i : Instr) (o : Output) : (s.note i o).nibbleIn = s.nibbleIn := rfl
@[simp] theorem note_codewordIn (s : State) (i : Instr) (o : Output) :
    (s.note i o).codewordIn = s.codewordIn := rfl
@[simp] theorem note_pending (s : State) (i : Instr) (o : Output) : (s.note i o).pending = s.pending := rfl
@[simp] theorem note_record (s : State) (i : Instr) (o : Output) :
    (s.note i o).record = s.record ++ [⟨i, o⟩] := rfl

/-! ## `withPending` -/

@[simp] theorem withPending_nibbleIn (s : State) (ds : List Drive) :
    (s.withPending ds).nibbleIn = s.nibbleIn := rfl
@[simp] theorem withPending_codewordIn (s : State) (ds : List Drive) :
    (s.withPending ds).codewordIn = s.codewordIn := rfl
@[simp] theorem withPending_pending (s : State) (ds : List Drive) : (s.withPending ds).pending = ds := rfl
@[simp] theorem withPending_record (s : State) (ds : List Drive) :
    (s.withPending ds).record = s.record := rfl

/-! ## Every net is read off its own port (spec/10_state.md R18, R19) -/

theorem codewordOut_of_port (s : State) (k : Nat) : s.codewordOut k = (s.nibblePort k).map encodeNibble := rfl
theorem nibbleOut_of_port (s : State) (k : Nat) : s.nibbleOut k = (s.codewordPort k).map decodeCodeword := rfl

end Sys2Proof.Machine
end

