-- ==== Sys2Proof/Laws/Ports.lean ====
section
/-! SUPPORT. What holding a word on a port does: the port reads back as the word, every other port of the
block as before, and the list of ports keeps its canonical form. -/

namespace Sys2Proof.Machine

/-- Read after write, on any instance. -/
theorem heldOn_holdOn {α : Type} (j k : Nat) (v : α) (ports : List (Nat × α)) :
    heldOn j (holdOn k v ports) = if k = j then some v else heldOn j ports := by
  induction ports with
  | nil => simp [holdOn, heldOn]
  | cons p ports ih =>
    obtain ⟨i, u⟩ := p
    simp only [holdOn]
    split
    · simp [heldOn]
    · split
      · obtain rfl := ‹k = i›
        by_cases h : k = j <;> simp [heldOn, h]
      · by_cases h : i = j
        · subst h
          simp [heldOn, ‹¬k = i›]
        · simp [heldOn, h, ih]

@[simp] theorem heldOn_holdOn_same {α : Type} (k : Nat) (v : α) (ports : List (Nat × α)) :
    heldOn k (holdOn k v ports) = some v := by simp [heldOn_holdOn]

theorem heldOn_holdOn_other {α : Type} {j k : Nat} (h : k ≠ j) (v : α) (ports : List (Nat × α)) :
    heldOn j (holdOn k v ports) = heldOn j ports := by simp [heldOn_holdOn, h]

/-- A list in canonical form stays so without its first port. -/
theorem portsWf_tail {α : Type} {p : Nat × α} {ports : List (Nat × α)} (h : portsWf (p :: ports) = true) :
    portsWf ports = true := by
  cases ports with
  | nil => rfl
  | cons q ports => simp only [portsWf, Bool.and_eq_true] at h; exact h.2

/-- The first port of a list in canonical form is followed by a greater one. -/
theorem portsWf_head {α : Type} {p q : Nat × α} {ports : List (Nat × α)}
    (h : portsWf (p :: q :: ports) = true) : p.1 < q.1 := by
  simp only [portsWf, Bool.and_eq_true, decide_eq_true_eq] at h
  exact h.1

/-- Holding a word on a port keeps the canonical form. -/
theorem portsWf_holdOn {α : Type} (k : Nat) (v : α) (ports : List (Nat × α))
    (h : portsWf ports = true) : portsWf (holdOn k v ports) = true := by
  induction ports with
  | nil => rfl
  | cons p ports ih =>
    obtain ⟨i, u⟩ := p
    have ih := ih (portsWf_tail h)
    simp only [holdOn]
    split
    · simpa [portsWf] using ⟨‹k < i›, h⟩
    · split
      · subst_vars
        cases ports with
        | nil => rfl
        | cons q ports => simpa [portsWf] using h
      · have hik : i < k := by omega
        cases ports with
        | nil => simpa [holdOn, portsWf] using hik
        | cons q ports =>
          have hq := portsWf_head h
          simp only [holdOn] at ih ⊢
          split at ih <;> split <;> simp_all [portsWf]
          all_goals split at ih <;> split <;> simp_all [portsWf]

/-! ## The ports of a state -/

theorem driveNibble_port (s : State) (k j : Nat) (n : Nibble) :
    (s.driveNibble k n).nibblePort j = if k = j then some n else s.nibblePort j :=
  heldOn_holdOn j k n s.nibbleIn

theorem driveCodeword_port (s : State) (k j : Nat) (c : Codeword) :
    (s.driveCodeword k c).codewordPort j = if k = j then some c else s.codewordPort j :=
  heldOn_holdOn j k c s.codewordIn

@[simp] theorem driveNibble_codewordPort (s : State) (k j : Nat) (n : Nibble) :
    (s.driveNibble k n).codewordPort j = s.codewordPort j := rfl
@[simp] theorem driveCodeword_nibblePort (s : State) (k j : Nat) (c : Codeword) :
    (s.driveCodeword k c).nibblePort j = s.nibblePort j := rfl
@[simp] theorem note_nibblePort (s : State) (i : Instr) (o : Output) (j : Nat) :
    (s.note i o).nibblePort j = s.nibblePort j := rfl
@[simp] theorem note_codewordPort (s : State) (i : Instr) (o : Output) (j : Nat) :
    (s.note i o).codewordPort j = s.codewordPort j := rfl
@[simp] theorem withPending_nibblePort (s : State) (ds : List Drive) (j : Nat) :
    (s.withPending ds).nibblePort j = s.nibblePort j := rfl
@[simp] theorem withPending_codewordPort (s : State) (ds : List Drive) (j : Nat) :
    (s.withPending ds).codewordPort j = s.codewordPort j := rfl

/-! ## Several ports driven at once -/

@[simp] theorem driveNibbles_nil (s : State) : s.driveNibbles [] = s := rfl
@[simp] theorem driveNibbles_cons (s : State) (p : Nat × Nibble) (ps : List (Nat × Nibble)) :
    s.driveNibbles (p :: ps) = (s.driveNibble p.1 p.2).driveNibbles ps := rfl
@[simp] theorem driveCodewords_nil (s : State) : s.driveCodewords [] = s := rfl
@[simp] theorem driveCodewords_cons (s : State) (p : Nat × Codeword) (ps : List (Nat × Codeword)) :
    s.driveCodewords (p :: ps) = (s.driveCodeword p.1 p.2).driveCodewords ps := rfl

/-- An instance that is not among those driven keeps its word. -/
theorem driveNibbles_other (ps : List (Nat × Nibble)) (s : State) (k : Nat) (h : k ∉ ps.map Prod.fst) :
    (s.driveNibbles ps).nibblePort k = s.nibblePort k := by
  induction ps generalizing s with
  | nil => rfl
  | cons p ps ih =>
    rw [List.map_cons, List.mem_cons, not_or] at h
    rw [driveNibbles_cons, ih _ h.2, driveNibble_port, if_neg (Ne.symm h.1)]

theorem driveCodewords_other (ps : List (Nat × Codeword)) (s : State) (k : Nat) (h : k ∉ ps.map Prod.fst) :
    (s.driveCodewords ps).codewordPort k = s.codewordPort k := by
  induction ps generalizing s with
  | nil => rfl
  | cons p ps ih =>
    rw [List.map_cons, List.mem_cons, not_or] at h
    rw [driveCodewords_cons, ih _ h.2, driveCodeword_port, if_neg (Ne.symm h.1)]

@[simp] theorem driveNibbles_codewordIn (ps : List (Nat × Nibble)) (s : State) :
    (s.driveNibbles ps).codewordIn = s.codewordIn := by
  induction ps generalizing s with
  | nil => rfl
  | cons p ps ih => rw [driveNibbles_cons, ih, driveNibble_codewordIn]

@[simp] theorem driveCodewords_nibbleIn (ps : List (Nat × Codeword)) (s : State) :
    (s.driveCodewords ps).nibbleIn = s.nibbleIn := by
  induction ps generalizing s with
  | nil => rfl
  | cons p ps ih => rw [driveCodewords_cons, ih, driveCodeword_nibbleIn]

end Sys2Proof.Machine
end

