-- ==== Sys2Proof/Laws/Record.lean ====
section
/-! SUPPORT. How the readings of the record follow one more evaluation. -/

namespace Sys2Proof.Machine

@[simp] theorem lastNibble_nil (k : Nat) : lastNibble k [] = none := rfl
@[simp] theorem lastCodeword_nil (k : Nat) : lastCodeword k [] = none := rfl

@[simp] theorem lastNibble_append_encode (k j : Nat) (n : Nibble) (o : Output) (es : List Evaluation) :
    lastNibble k (es ++ [⟨.encode j n, o⟩]) = if j = k then some n else lastNibble k es := by
  simp [lastNibble]

@[simp] theorem lastNibble_append_decode (k j : Nat) (c : Codeword) (o : Output) (es : List Evaluation) :
    lastNibble k (es ++ [⟨.decode j c, o⟩]) = lastNibble k es := by
  simp [lastNibble]

@[simp] theorem lastCodeword_append_encode (k j : Nat) (n : Nibble) (o : Output) (es : List Evaluation) :
    lastCodeword k (es ++ [⟨.encode j n, o⟩]) = lastCodeword k es := by
  simp [lastCodeword]

@[simp] theorem lastCodeword_append_decode (k j : Nat) (c : Codeword) (o : Output) (es : List Evaluation) :
    lastCodeword k (es ++ [⟨.decode j c, o⟩]) = if j = k then some c else lastCodeword k es := by
  simp [lastCodeword]

@[simp] theorem codewordsRead_append (es fs : List Evaluation) :
    codewordsRead (es ++ fs) = codewordsRead es ++ codewordsRead fs := by simp [codewordsRead]

@[simp] theorem nibblesRead_append (es fs : List Evaluation) :
    nibblesRead (es ++ fs) = nibblesRead es ++ nibblesRead fs := by simp [nibblesRead]

end Sys2Proof.Machine
end

