-- ==== Sys2Proof/Laws/Schedule.lean ====
section
/-! SUPPORT. The driver's schedule and its placing of results (spec/20_memory.md R41): which positions are
asked for, and that a placing looks only at the results of the position. -/

namespace Sys2Proof.Machine

@[simp] theorem schedule_nil {α : Type} (xs : List α) : schedule [] xs = [] := rfl

/-- A position within the stream is asked for, with its element. -/
theorem schedule_cons_of_lt {α : Type} {j : Nat} {xs : List α} (h : j < xs.length) (order : List Nat) :
    schedule (j :: order) xs = (j, xs[j]) :: schedule order xs := by
  simp [schedule, h]

/-- A position beyond the stream is not asked for. -/
theorem schedule_cons_of_ge {α : Type} {j : Nat} {xs : List α} (h : xs.length ≤ j) (order : List Nat) :
    schedule (j :: order) xs = schedule order xs := by
  simp [schedule, h]

/-- The positions asked for are those of the order that lie within the stream. -/
theorem schedule_positions {α : Type} (order : List Nat) (xs : List α) :
    (schedule order xs).map Prod.fst = order.filter (fun j => j < xs.length) := by
  induction order with
  | nil => rfl
  | cons j order ih =>
    by_cases h : j < xs.length
    · simp [schedule_cons_of_lt h, h, ih]
    · simp [schedule_cons_of_ge (Nat.le_of_not_lt h), h, ih]

/-- Every element asked for is the stream's element at its position. -/
theorem schedule_element {α : Type} {order : List Nat} {xs : List α} {p : Nat × α}
    (h : p ∈ schedule order xs) : xs[p.1]? = some p.2 := by
  obtain ⟨j, _, hj⟩ := List.mem_filterMap.1 h
  obtain ⟨x, hx, rfl⟩ := Option.map_eq_some_iff.1 hj
  exact hx

/-- A stream that is asked for has as many drives as positions within it. -/
@[simp] theorem encodeDrives_length (place : Nat → Nat) (order : List Nat) (ns : List Nibble) :
    (encodeDrives place order ns).length = (order.filter (fun j => j < ns.length)).length := by
  rw [encodeDrives, List.length_map, ← schedule_positions, List.length_map]

@[simp] theorem decodeDrives_length (place : Nat → Nat) (order : List Nat) (cs : List Codeword) :
    (decodeDrives place order cs).length = (order.filter (fun j => j < cs.length)).length := by
  rw [decodeDrives, List.length_map, ← schedule_positions, List.length_map]

end Sys2Proof.Machine
end

