-- ==== Sys2Proof/Laws/Step.lean ====
section
/-! SUPPORT. What each meaning and a step can do, said once. -/

namespace Sys2Proof.Machine

/-- Everything ENCODE does. -/
theorem exec_encode (k : Nat) (n : Nibble) (s : State) :
    exec (.encode k n) s = .next ((s.driveNibble k n).note (.encode k n) (.codeword (encodeNibble n))) := rfl

/-- Everything DECODE does. -/
theorem exec_decode (k : Nat) (c : Codeword) (s : State) :
    exec (.decode k c) s = .next ((s.driveCodeword k c).note (.decode k c) (.nibble (decodeCodeword c))) := rfl

/-- What an instruction can do, whichever it is. -/
theorem exec_cases {i : Instr} {s t : State} (h : exec i s = .next t) :
    (∃ k n, i = .encode k n ∧ t = (s.driveNibble k n).note i (.codeword (encodeNibble n))) ∨
    (∃ k c, i = .decode k c ∧ t = (s.driveCodeword k c).note i (.nibble (decodeCodeword c))) := by
  cases i with
  | encode k n => rw [exec_encode] at h; cases h; exact .inl ⟨k, n, rfl, rfl⟩
  | decode k c => rw [exec_decode] at h; cases h; exact .inr ⟨k, c, rfl, rfl⟩

/-- A step at the end of the environment's list. -/
theorem step_nil {s : State} (h : s.pending = []) : step s = .next s := by
  simp [step, h]

/-- A step that has an evaluation to do. -/
theorem step_cons {s : State} {d : Drive} {ds : List Drive} (h : s.pending = d :: ds) :
    step s = exec (instrOf d) (s.withPending ds) := by
  simp [step, h]

/-- What a step can do. -/
theorem step_cases {s t : State} (h : step s = .next t) :
    (s.pending = [] ∧ t = s) ∨
    (∃ d ds, s.pending = d :: ds ∧ exec (instrOf d) (s.withPending ds) = .next t) := by
  cases hp : s.pending with
  | nil => rw [step_nil hp] at h; cases h; exact .inl ⟨rfl, rfl⟩
  | cons d ds => rw [step_cons hp] at h; exact .inr ⟨d, ds, rfl, h⟩

/-- A run of no step. -/
theorem run_zero (s : State) : Host.Core.run Sys2Proof.core 0 s = .next s := rfl

/-- A run whose first step answers a next state. -/
theorem run_succ {s t : State} (k : Nat) (h : step s = .next t) :
    Host.Core.run Sys2Proof.core (k + 1) s = Host.Core.run Sys2Proof.core k t := by
  have h' : Sys2Proof.core.step s = .next t := h
  simp only [Host.Core.run, h']

end Sys2Proof.Machine
end

