-- ==== Sys2Proof/Tests/Slice0.lean ====
section
/-! SUPPORT. The model's own tests. Expected values are the spec's (spec/95_test_vectors.md, by table) or
written out by hand from its formats. The witnesses show, for each obligation with hypotheses, operands
and a state that meet them all.

There is no ill-formed term to test WellFormed with: the spec gives no check to fail
(spec/60_exceptions.md R127), so WellFormed holds of every instruction, and that is the smoke test. -/

namespace Sys2Proof.Tests

open Sys2Proof Sys2Proof.Machine

/-- The last output of an outcome, for the tests to read. -/
def lastOutput (o : Host.Outcome State Fault Refusal) : Option Output :=
  match o with
  | .next s    => s.record.getLast?.map (fun e => e.out)
  | .fault _   => none
  | .refused _ => none

/-- A small state: the start, with the given drives to do. -/
def start (ds : List Drive) : State := State.reset.withPending ds

/-- A state in mid-run: encoder 0 and decoder 2 are driven, one evaluation of each is recorded, one drive is
left to do. -/
def midRun : State :=
  { nibbleIn   := [(0, 0x4#4)]
    codewordIn := [(2, 0x21#8)]
    pending    := [⟨⟨.decoder, 1⟩, 0x26#8⟩]
    record     := [⟨.encode 0 0x4#4, .codeword 0x25#8⟩, ⟨.decode 2 0x21#8, .nibble 0x4#4⟩] }

/-! ## Well-formedness -/

theorem test_every_instruction_is_well_formed (i : Instr) : WellFormed i = true := by cases i <;> rfl

/-! ## Decoding: words written out from the formats -/

/-- R59 row ENCODE, `abcd`: 1, 1, 0, 1 are d1, d2, d3, d4 (E1: the nibble 0xD). -/
theorem test_decode_nibble_word :
    decode ⟨.encoder, 0⟩ [0b0000_1101#8] = .ok (.encode 0 0xD#4, []) := by rfl

/-- R59 row DECODE, `uabcdxyz`: u = 1, data 1101, parity 001 (T9: 0xE9). -/
theorem test_decode_codeword_word :
    decode ⟨.decoder, 0⟩ [0b1_1101_001#8] = .ok (.decode 0 0xE9#8, []) := by rfl

/-- No word, no instruction: rejected by name. -/
theorem test_decode_no_word : decode ⟨.decoder, 0⟩ [] = .error .noWord := by rfl

/-- R58: the same word is one operation or the other by its port alone. -/
theorem test_port_selects :
    decodeWord ⟨.encoder, 0⟩ 0x05#8 = .encode 0 0x5#4 ∧ decodeWord ⟨.decoder, 0⟩ 0x05#8 = .decode 0 0x05#8 := by
  decide

/-- Table words: a four-bit word, a word of eight bits that only row DECODE admits, and words no row
admits. -/
theorem test_table_words :
    decodeTableWord 4 0xD = some (.encode 0 0xD#4) ∧ decodeTableWord 8 0xE9 = some (.decode 0 0xE9#8) ∧
    decodeTableWord 8 256 = none ∧ decodeTableWord 3 0 = none := by decide

/-- Log entry 7: a word of eight bits below 16 is read as row ENCODE, the first that admits it. -/
theorem test_table_word_of_both_rows : decodeTableWord 8 0x0D = some (.encode 0 0xD#4) := by decide

/-- The first step after the start runs a placed table word. -/
theorem test_placed_word_runs_first :
    lastOutput (step (State.reset.withFetchWord 4 0x4)) = some (.codeword 0x25#8) ∧
    lastOutput (step (State.reset.withFetchWord 8 0x65)) = some (.nibble 0x4#4) := by decide

/-! ## ENCODE -/

/-- T1 and the corner case 0xE: all parities 0 although the data is not. -/
theorem test_encode_fourteen :
    lastOutput (exec (.encode 0 0xE#4) midRun) = some (.codeword 0x70#8) := by decide

/-- T10: a byte-typed argument is masked: ENCODE(0x4D) = 0x69. -/
theorem test_encode_masks_a_byte :
    lastOutput (step (start [⟨⟨.encoder, 0⟩, 0x4D#8⟩])) = some (.codeword 0x69#8) := by decide

/-! ## DECODE -/

/-- T8: 0x65 is ENCODE(4) with bit 6 flipped; both of the source's formulas fail here. -/
theorem test_decode_flipped_data_bit :
    lastOutput (exec (.decode 0 0x65#8) midRun) = some (.nibble 0x4#4) := by decide

/-- T7: two flipped bits run, and give 0xC. -/
theorem test_decode_two_flips : lastOutput (step midRun) = some (.nibble 0xC#4) := by decide

/-! ## Internal nets (T6, worked row n = 0xD, p = 5) and the environment (T11, E2) -/

theorem test_nets_of_a_flipped_codeword :
    let s := State.reset.driveCodeword 7 0x49#8
    s.netS1 7 = some 1#1 ∧ s.netS2 7 = some 0#1 ∧ s.netS3 7 = some 1#1 ∧ s.netSyndrome 7 = some 5#3 ∧
    s.netMask 7 = some 0x20#8 ∧ s.netCorrected 7 = some 0x69#8 ∧ s.nibbleOut 7 = some 0xD#4 := by decide

/-- E1: nibble 0x4 has data bits 0 1 0 0 and parities 1 0 1. -/
theorem test_nets_of_a_nibble :
    let s := State.reset.driveNibble 1 0x4#4
    s.netD1 1 = some 0#1 ∧ s.netD2 1 = some 1#1 ∧ s.netD3 1 = some 0#1 ∧ s.netD4 1 = some 0#1 ∧
    s.netP1 1 = some 1#1 ∧ s.netP2 1 = some 0#1 ∧ s.netP3 1 = some 1#1 := by decide

theorem test_encode_byte : encodeByte 0x69#8 = (0x33#8, 0x4C#8) := by decide
theorem test_decode_pair : decodePair 0x21#8 0xE9#8 = 0x4D#8 ∧ decodePair 0x26#8 0x69#8 = 0xCD#8 := by decide
theorem test_corrupt_position_three : corrupt 0x25#8 3 = 0x2D#8 ∧ corrupt 0xFF#8 3 = 0xF7#8 := by decide

/-- P1: the stream 25 43 33 4C, its nibbles evaluated last first and one of them twice, on two instances. -/
theorem test_stream_out_of_order :
    let order := [3, 1, 2, 1, 0]
    let ds := encodeDrives (fun j => j % 2) order (nibblesOf [0x48#8, 0x69#8])
    ds.map (fun d => d.port.inst) = [1, 1, 0, 1, 0] ∧
    placeResults 4 order (codewordsRead (ds.map (fun d => ⟨instrOf d, resultOf (instrOf d)⟩))) =
      [0x25#8, 0x43#8, 0x33#8, 0x4C#8] := by decide

/-- E1 in parallel: two encoder instances hold 0x4 and 0xD at once and show both codewords. -/
theorem test_two_instances_together :
    let s := State.reset.driveNibbles [(0, 0x4#4), (1, 0xD#4)]
    s.codewordOut 0 = some 0x25#8 ∧ s.codewordOut 1 = some 0x69#8 := by decide

/-- D14's examples of ODD_TAIL_POLICY on one unpaired codeword. -/
theorem test_odd_tail :
    decodeStream Config.dropOddTail [0x25#8, 0x69#8, 0x00#8] = some [0x4D#8] ∧
    decodeStream Config.refuseOddTail [0x25#8, 0x69#8, 0x00#8] = none := by decide

/-- R52: the received fields of 0xA5 = 1 0100 101, u among them. -/
theorem test_received_fields :
    codewordU 0xA5#8 = 1#1 ∧ codewordD1 0xA5#8 = 0#1 ∧ codewordD2 0xA5#8 = 1#1 ∧ codewordD3 0xA5#8 = 0#1 ∧
    codewordD4 0xA5#8 = 0#1 ∧ codewordP1 0xA5#8 = 1#1 ∧ codewordP2 0xA5#8 = 0#1 ∧ codewordP3 0xA5#8 = 1#1 := by
  decide

/-- R5: the parameters fit each other and the ROM. -/
theorem test_parameters :
    Config.blockLength = Config.dataLength + Config.parityLength ∧ Config.romDepth = 2 ^ Config.parityLength ∧
    Config.storedWidth = Config.blockLength + 1 ∧ syndromeRom.toList.length = Config.romDepth := by decide

/-! ## Witnesses: the hypotheses of the obligations are met -/

/-- For EncodeAnswersCodeword and DecodeAnswersNibble (i < 4, at both ends) and the frames (j ≠ k). -/
theorem witness_index_bounds : (0 < 4 ∧ 3 < 4) ∧ ((1 : Nat) ≠ 0) := by decide

/-- For EvaluationForgets: an evaluation, done twice. -/
theorem witness_EvaluationForgets : ∃ t u, exec (.encode 0 0xF#4) midRun = .next t ∧
    exec (.encode 0 0xF#4) t = .next u := ⟨_, _, rfl, rfl⟩

theorem witness_StepRunsTheDecoded :
    midRun.pending = ⟨⟨.decoder, 1⟩, 0x26#8⟩ :: [] ∧
    decode ⟨.decoder, 1⟩ [0x26#8] = .ok (.decode 1 0x26#8, []) ∧ WellFormed (.decode 1 0x26#8) = true :=
  ⟨rfl, rfl, rfl⟩

theorem witness_StepAtTheEnd : (midRun.withPending []).pending = [] := rfl

theorem witness_ScheduleDoesNotMatter :
    [(⟨⟨.encoder, 0⟩, 0x04#8⟩ : Drive), ⟨⟨.decoder, 0⟩, 0x65#8⟩].Perm
      [⟨⟨.decoder, 0⟩, 0x65#8⟩, ⟨⟨.encoder, 0⟩, 0x04#8⟩] := by decide

/-- Two instances of one block, and one instance of each block. -/
theorem witness_InstancesDoNotInteract :
    portsWf midRun.nibbleIn = true ∧ portsWf midRun.codewordIn = true ∧
    portOf (.decode 1 0x26#8) ≠ portOf (.decode 2 0x21#8) ∧
    portOf (.encode 1 0x2#4) ≠ portOf (.decode 1 0x26#8) := by decide

theorem witness_InstancesAnswerTogether :
    ([(0, 0x4#4), (1, 0xD#4)] : List (Nat × Nibble)).map Prod.fst |>.Nodup := by decide

/-- Orders that name every position: as the stream runs, and last first with a repeat and one beyond. -/
theorem witness_StreamOrderIsPositional :
    (∀ j < 4, j ∈ List.range 4) ∧ (∀ j < 4, j ∈ [3, 2, 9, 1, 3, 0]) := by decide

/-- A state in mid-run meets the invariant, and steps. -/
theorem witness_StepKeepsInv : midRun.Inv ∧ ∃ t, step midRun = .next t := by
  refine ⟨⟨rfl, rfl, ?_, ?_, ?_⟩, _, rfl⟩
  · intro e he
    simp only [midRun, List.mem_cons, List.not_mem_nil, or_false] at he
    rcases he with rfl | rfl
    · exact ⟨by decide, by decide⟩
    · exact ⟨0x25#8, by decide, by decide, by decide⟩
  · intro k
    by_cases h : 0 = k <;> simp [midRun, State.nibblePort, heldOn, lastNibble, h]
  · intro k
    by_cases h : 2 = k <;> simp [midRun, State.codewordPort, heldOn, lastCodeword, h]

/-- The invariant rules states out: a result that is no valid codeword breaks it. -/
theorem witness_Inv_refuses_a_wrong_result :
    ¬ State.Inv { midRun with record := [⟨.encode 0 0x4#4, .codeword 0x24#8⟩] } := by
  intro h
  have := (h.recorded _ (List.mem_singleton.2 rfl)).1
  revert this
  decide

theorem witness_DecodeEncodeAgree :
    ∀ i ∈ [Instr.encode 3 0x0#4, .encode 3 0xF#4], portOf i = ⟨.encoder, 3⟩ := by decide

/-- At the ends of each clause's range. -/
theorem witness_TableWordRuns :
    decodeTableWord 8 0xFF = some (.decode 0 0xFF#8) ∧ decodeTableWord 8 0 = some (.encode 0 0x0#4) ∧
    16 ≤ (0x10#8 : Codeword).toNat ∧ 16 ≤ (0xFF#8 : Codeword).toNat := by decide

theorem witness_EncodeProperties : (0x0#4 : Nibble) ≠ 0x1#4 ∧ encodeNibble 0x6#4 = encodeNibble 0x6#4 :=
  ⟨by decide, rfl⟩

theorem witness_SyndromeNamesTheFlippedBit :
    ∃ t, exec (.decode 0 (encodeNibble 0xD#4 ^^^ 0x20#8)) midRun = .next t := ⟨_, rfl⟩

theorem witness_ShiftFormulasFail : 1 < 8 ∧ (1 : Nat) ≠ 0 ∧ 7 < 8 ∧ (7 : Nat) ≠ 0 := by decide

theorem witness_RomHoldsTheMasks : (0x1#3 : Syndrome) ≠ 0#3 ∧ (0x7#3 : Syndrome) ≠ 0#3 := by decide

/-- The first and last bit positions, and a valid codeword within one meaningful bit (0x65 and 0x25). -/
theorem witness_SingleErrorIsCorrected :
    0 ≤ 7 ∧ 7 ≤ 7 ∧ isValid 0x25#8 ∧ meaningfulDistance 0x65#8 0x25#8 ≤ 1 := by decide

/-- Two flips at the ends of the meaningful bits, and all seven; one flip beside bit 7 does not count. -/
theorem witness_MoreErrorsNeverDecodeRight :
    2 ≤ meaningfulWeight 0x41#8 ∧ 2 ≤ meaningfulWeight 0x7F#8 ∧ ¬ 2 ≤ meaningfulWeight 0xC0#8 := by decide

theorem witness_DecodeProperties : isValid 0x00#8 ∧ isValid 0x7F#8 := by decide

theorem witness_CorruptorFlipsOneBit : 0 < 8 ∧ 7 < 8 := by decide

/-- An even stream, a byte of it, and the odd stream of its clause. -/
theorem witness_DecodedStreamLayout :
    ([0x25#8, 0x69#8] : List Codeword).length % 2 = 0 ∧
    decodeStream Config.dropOddTail [0x25#8, 0x69#8] = some [0x4D#8] ∧ [0x4D#8][0]? = some 0x4D#8 := by decide

/-- Patterns at the bound for StreamErrorsStayConfined and MachineStreamRoundTrip: one meaningful flip, one
beside bit 7, none; and the two positions of a stream of one byte, in two orders. -/
theorem witness_MachineStreamRoundTrip :
    (∀ e ∈ [0x01#8, 0xC0#8, 0x00#8], meaningfulWeight e ≤ 1) ∧
    (∀ j < 2 * [(0x4D#8 : Byte)].length, j ∈ [1, 0]) ∧ (∀ j < 2 * [(0x4D#8 : Byte)].length, j ∈ [0, 1]) := by
  decide

end Sys2Proof.Tests
end

/-! PROOFS of the statements on the state: an evaluation forgets what was before it (spec/10_state.md R11), and
instances share no net (R16, spec/20_memory.md R40). -/

namespace Sys2Proof.Machine

/-! ## Words held one after the other on the ports of one block -/

theorem holdOn_cons_of_lt {α : Type} {j k : Nat} (h : k < j) (v u : α) (ports : List (Nat × α)) :
    holdOn k v ((j, u) :: ports) = (k, v) :: (j, u) :: ports := by
  simp [holdOn, h]

@[simp] theorem holdOn_cons_same {α : Type} (k : Nat) (v u : α) (ports : List (Nat × α)) :
    holdOn k v ((k, u) :: ports) = (k, v) :: ports := by
  simp [holdOn]

theorem holdOn_cons_of_gt {α : Type} {j k : Nat} (h : j < k) (v u : α) (ports : List (Nat × α)) :
    holdOn k v ((j, u) :: ports) = (j, u) :: holdOn k v ports := by
  simp [holdOn, Nat.not_lt_of_gt h, Nat.ne_of_gt h]

/-- The word last put on a port is the only one that shows: the word before it leaves no trace. -/
@[simp] theorem holdOn_holdOn_same {α : Type} (k : Nat) (v u : α) (ports : List (Nat × α)) :
    holdOn k v (holdOn k u ports) = holdOn k v ports := by
  induction ports with
  | nil => exact holdOn_cons_same k v u []
  | cons p ports ih =>
    obtain ⟨i, w⟩ := p
    rcases Nat.lt_trichotomy k i with hki | rfl | hik
    · simp only [holdOn_cons_of_lt hki, holdOn_cons_same]
    · simp only [holdOn_cons_same]
    · simp only [holdOn_cons_of_gt hik, ih]

/-- Words put on two ports of a block, the lower one named first, in either order. -/
theorem holdOn_comm_of_lt {α : Type} {j k : Nat} (h : j < k) (u v : α) (ports : List (Nat × α)) :
    holdOn k v (holdOn j u ports) = holdOn j u (holdOn k v ports) := by
  induction ports with
  | nil => exact (holdOn_cons_of_gt h v u []).trans (holdOn_cons_of_lt h u v []).symm
  | cons p ports ih =>
    obtain ⟨i, w⟩ := p
    rcases Nat.lt_trichotomy j i with hji | rfl | hij
    · rw [holdOn_cons_of_lt hji, holdOn_cons_of_gt h]
      rcases Nat.lt_trichotomy k i with hki | rfl | hik
      · rw [holdOn_cons_of_lt hki, holdOn_cons_of_lt h]
      · rw [holdOn_cons_same, holdOn_cons_of_lt h]
      · rw [holdOn_cons_of_gt hik, holdOn_cons_of_lt hji]
    · rw [holdOn_cons_same, holdOn_cons_of_gt h, holdOn_cons_of_gt h, holdOn_cons_same]
    · rw [holdOn_cons_of_gt hij, holdOn_cons_of_gt (hij.trans h), holdOn_cons_of_gt (hij.trans h),
        holdOn_cons_of_gt hij, ih]

/-- Words put on two different ports of a block stand there alike in either order, whether or not the list
of ports is in canonical form. -/
theorem holdOn_comm {α : Type} {j k : Nat} (h : j ≠ k) (u v : α) (ports : List (Nat × α)) :
    holdOn k v (holdOn j u ports) = holdOn j u (holdOn k v ports) := by
  rcases Nat.lt_or_gt_of_ne h with hjk | hkj
  · exact holdOn_comm_of_lt hjk u v ports
  · exact (holdOn_comm_of_lt hkj v u ports).symm

/-! ## The drive of an instruction, whichever it is -/

/-- The state with an instruction's word put on its port; `exec_eq` says that this and one result written
down are all an evaluation does. -/
def State.driveInstr (s : State) (i : Instr) : State :=
  match i with
  | .encode k n => s.driveNibble k n
  | .decode k c => s.driveCodeword k c

@[simp] theorem driveInstr_encode (s : State) (k : Nat) (n : Nibble) :
    s.driveInstr (.encode k n) = s.driveNibble k n := rfl
@[simp] theorem driveInstr_decode (s : State) (k : Nat) (c : Codeword) :
    s.driveInstr (.decode k c) = s.driveCodeword k c := rfl

@[simp] theorem driveInstr_pending (s : State) (i : Instr) : (s.driveInstr i).pending = s.pending := by
  cases i <;> rfl
@[simp] theorem driveInstr_record (s : State) (i : Instr) : (s.driveInstr i).record = s.record := by
  cases i <;> rfl

/-- The record has no part in a drive. -/
@[simp] theorem driveInstr_note (s : State) (i j : Instr) (o : Output) :
    (s.note j o).driveInstr i = (s.driveInstr i).note j o := by
  cases i <;> rfl

/-- Everything an evaluation does: its word on its port, and its output word written down. -/
theorem exec_eq (i : Instr) (s : State) : exec i s = .next ((s.driveInstr i).note i (resultOf i)) := by
  cases i with
  | encode k n => exact exec_encode k n s
  | decode k c => exact exec_decode k c s

/-- Every instruction answers its output word in every state. -/
theorem answers_resultOf (i : Instr) (s : State) : Answers i s (resultOf i) :=
  ⟨_, exec_eq i s, by simp⟩

/-- To put the same word on the same port once more changes nothing. -/
@[simp] theorem driveInstr_driveInstr_same (s : State) (i : Instr) :
    (s.driveInstr i).driveInstr i = s.driveInstr i := by
  cases i with
  | encode k n => simp [State.driveNibble]
  | decode k c => simp [State.driveCodeword]

/-- Drives of two different ports commute: of two instances of one block because the block's port list is
the same in either order, of the two blocks because they write different fields. -/
theorem driveInstr_comm {i j : Instr} (h : portOf i ≠ portOf j) (s : State) :
    (s.driveInstr i).driveInstr j = (s.driveInstr j).driveInstr i := by
  cases i with
  | encode k n =>
    cases j with
    | encode l m =>
      have hkl : k ≠ l := fun e => h (congrArg (Port.mk .encoder) e)
      simp [State.driveNibble, holdOn_comm hkl]
    | decode l c => rfl
  | decode k c =>
    cases j with
    | encode l m => rfl
    | decode l d =>
      have hkl : k ≠ l := fun e => h (congrArg (Port.mk .decoder) e)
      simp [State.driveCodeword, holdOn_comm hkl]

/-! ## Several ports driven at once -/

theorem driveNibbles_append (ps qs : List (Nat × Nibble)) (s : State) :
    s.driveNibbles (ps ++ qs) = (s.driveNibbles ps).driveNibbles qs := List.foldl_append
theorem driveCodewords_append (ps qs : List (Nat × Codeword)) (s : State) :
    s.driveCodewords (ps ++ qs) = (s.driveCodewords ps).driveCodewords qs := List.foldl_append

/-- Where no port is named twice, a word of the list is the last one put on its port. -/
theorem last_word_of_nodup {α : Type} {p : Nat × α} {ps : List (Nat × α)} (h : (ps.map Prod.fst).Nodup)
    (hp : p ∈ ps) : ∃ as bs, ps = as ++ p :: bs ∧ p.1 ∉ bs.map Prod.fst := by
  obtain ⟨as, bs, rfl⟩ := List.append_of_mem hp
  rw [List.map_append, List.map_cons] at h
  exact ⟨as, bs, rfl, (List.nodup_cons.1 h.of_append_right).1⟩

/-- Every encoder driven holds its word. -/
theorem driveNibbles_nibblePort_of_mem {p : Nat × Nibble} {ps : List (Nat × Nibble)}
    (h : (ps.map Prod.fst).Nodup) (hp : p ∈ ps) (s : State) :
    (s.driveNibbles ps).nibblePort p.1 = some p.2 := by
  obtain ⟨as, bs, rfl, hbs⟩ := last_word_of_nodup h hp
  rw [driveNibbles_append, driveNibbles_cons, driveNibbles_other bs _ _ hbs, driveNibble_port, if_pos rfl]

/-- Every decoder driven holds its word. -/
theorem driveCodewords_codewordPort_of_mem {p : Nat × Codeword} {ps : List (Nat × Codeword)}
    (h : (ps.map Prod.fst).Nodup) (hp : p ∈ ps) (s : State) :
    (s.driveCodewords ps).codewordPort p.1 = some p.2 := by
  obtain ⟨as, bs, rfl, hbs⟩ := last_word_of_nodup h hp
  rw [driveCodewords_append, driveCodewords_cons, driveCodewords_other bs _ _ hbs, driveCodeword_port,
    if_pos rfl]

@[simp] theorem driveNibbles_codewordPort (ps : List (Nat × Nibble)) (s : State) (k : Nat) :
    (s.driveNibbles ps).codewordPort k = s.codewordPort k :=
  congrArg (heldOn k) (driveNibbles_codewordIn ps s)
@[simp] theorem driveCodewords_nibblePort (ps : List (Nat × Codeword)) (s : State) (k : Nat) :
    (s.driveCodewords ps).nibblePort k = s.nibblePort k :=
  congrArg (heldOn k) (driveCodewords_nibbleIn ps s)

/-! ## The statements -/

/-- Settles O11: the drives of two different ports commute, and each evaluation writes down its own output
word. The premises on the port lists are not needed: `holdOn_comm` has none. -/
theorem instancesDoNotInteract : Obligations.InstancesDoNotInteract := by
  intro i j s _ _ hij
  refine ⟨_, _, _, _, resultOf i, resultOf j, exec_eq i s, exec_eq j _, exec_eq j s, exec_eq i _, ?_⟩
  simp [driveInstr_comm hij]

/-- Settles O44: an output is read off its own port alone, so each clause is one about the ports: a driven
port holds its word, any other port of the block the word it had, and the other block is untouched. -/
theorem instancesAnswerTogether : Obligations.InstancesAnswerTogether := by
  refine ⟨fun ps s h => ⟨fun p hp => ?_, fun k hk => ?_, fun k => ?_⟩,
    fun ps s h => ⟨fun p hp => ?_, fun k hk => ?_, fun k => ?_⟩⟩
  · rw [codewordOut_of_port, driveNibbles_nibblePort_of_mem h hp, Option.map_some]
  · rw [codewordOut_of_port, driveNibbles_other ps s k hk, codewordOut_of_port]
  · rw [nibbleOut_of_port, driveNibbles_codewordPort, nibbleOut_of_port]
  · rw [nibbleOut_of_port, driveCodewords_codewordPort_of_mem h hp, Option.map_some]
  · rw [nibbleOut_of_port, driveCodewords_other ps s k hk, nibbleOut_of_port]
  · rw [codewordOut_of_port, driveCodewords_nibblePort, codewordOut_of_port]

/-- Settles O5: the output is `resultOf`, which does not mention the state, and a drive done twice is the
drive done once. -/
theorem evaluationForgets : Obligations.EvaluationForgets := by
  intro i
  refine ⟨resultOf i, fun s => ⟨answers_resultOf i s, fun t u ht hu => ?_⟩⟩
  rw [exec_eq] at ht hu
  cases ht
  cases hu
  rw [driveInstr_note, driveInstr_driveInstr_same]
  exact ⟨rfl, rfl, rfl⟩

end Sys2Proof.Machine

/-! PROOFS of the statements on the environment's list (spec/20_memory.md): a run writes down the evaluation
of each drive in order, whatever the state (R40); a driver's results stand by position (R41); the words of
the table are all reached (R31); and a codeword is the weighted sum of its fields (R33). -/

namespace Sys2Proof.Machine

/-! ## An instruction and its drive -/

/-- The word of an instruction, put on its port, asks for that instruction. -/
@[simp] theorem instrOf_driveOf (i : Instr) : instrOf (driveOf i) = i := by
  cases i with
  | encode k n =>
    have hn : nibbleOfByte (n.setWidth 8) = n := by revert n; decide
    exact congrArg (Instr.encode k) hn
  | decode k c => rfl

/-! ## A run of the environment's list -/

/-- What a drive has the machine write down; `run_withPending` says that it does, from every state. -/
def evaluationOf (d : Drive) : Evaluation := ⟨instrOf d, resultOf (instrOf d)⟩

@[simp] theorem evaluationOf_driveOf (i : Instr) : evaluationOf (driveOf i) = ⟨i, resultOf i⟩ := by
  rw [evaluationOf, instrOf_driveOf]

/-- The evaluations still to be done have no part in the one that is done. -/
theorem note_driveInstr_withPending (s : State) (ds : List Drive) (i : Instr) (o : Output) :
    ((s.withPending ds).driveInstr i).note i o = ((s.driveInstr i).note i o).withPending ds := by
  cases i <;> rfl

/-- A step with an evaluation to do: the word is on its port and the evaluation is written down. -/
theorem step_withPending_cons (s : State) (d : Drive) (ds : List Drive) :
    step (s.withPending (d :: ds)) =
      .next (((s.driveInstr (instrOf d)).note (instrOf d) (resultOf (instrOf d))).withPending ds) := by
  rw [step_cons (withPending_pending s (d :: ds)), exec_eq, ← note_driveInstr_withPending]
  rfl

/-- As many steps as there are drives leave none, and write down the evaluation of each, in order. -/
theorem run_withPending (ds : List Drive) (s : State) : ∃ t : State,
    Host.Core.run Sys2Proof.core ds.length (s.withPending ds) = .next t ∧
    t.pending = [] ∧ t.record = s.record ++ ds.map evaluationOf := by
  induction ds generalizing s with
  | nil => exact ⟨s.withPending [], run_zero _, rfl, (List.append_nil _).symm⟩
  | cons d ds ih =>
    obtain ⟨t, hrun, hpending, hrecord⟩ :=
      ih ((s.driveInstr (instrOf d)).note (instrOf d) (resultOf (instrOf d)))
    refine ⟨t, (run_succ _ (step_withPending_cons s d ds)).trans hrun, hpending, ?_⟩
    simp [hrecord, evaluationOf]

/-! ## The results of a schedule, placed -/

/-- To ask for the elements of a stream and map them is to ask for those of the mapped stream. -/
theorem schedule_map {α β : Type} (f : α → β) (order : List Nat) (xs : List α) :
    schedule order (xs.map f) = (schedule order xs).map (fun p => (p.1, f p.2)) := by
  simp [schedule, List.map_filterMap, Function.comp_def]

/-- The first entry for a position that is asked for is the stream's element there, since every entry for
it is. -/
theorem lookup_schedule {α : Type} {j : Nat} {order : List Nat} {xs : List α} (hj : j < xs.length)
    (hmem : j ∈ order) : (schedule order xs).lookup j = xs[j]? := by
  have hpos : j ∈ (schedule order xs).map Prod.fst := by simp [schedule_positions, hj, hmem]
  obtain ⟨p, hp, hpj⟩ := List.mem_map.1 hpos
  obtain ⟨x, hx⟩ := Option.isSome_iff_exists.1 (List.lookup_isSome_iff.2 ⟨p, hp, beq_iff_eq.2 hpj.symm⟩)
  obtain ⟨front, back, hsplit, -⟩ := List.lookup_eq_some_iff.1 hx
  have hentry : (j, x) ∈ schedule order xs := by simp [hsplit]
  rw [hx, schedule_element hentry]

/-- The elements at the positions of a list are the list. -/
theorem filterMap_getElem?_range {α : Type} (xs : List α) :
    (List.range xs.length).filterMap (fun j => xs[j]?) = xs := by
  induction xs with
  | nil => rfl
  | cons x xs ih => simpa [List.range_succ_eq_map, List.filterMap_map, Function.comp_def] using ih

/-- What was asked for in an order that names every position, placed, is the stream. -/
theorem placeResults_schedule {α : Type} {order : List Nat} {xs : List α}
    (h : ∀ j < xs.length, j ∈ order) :
    placeResults xs.length order ((schedule order xs).map Prod.snd) = xs := by
  have hzip := List.zip_of_prod (schedule_positions order xs) rfl
  calc placeResults xs.length order ((schedule order xs).map Prod.snd)
      = (List.range xs.length).filterMap (fun j => (schedule order xs).lookup j) := by
        rw [placeResults, ← hzip]
    _ = (List.range xs.length).filterMap (fun j => xs[j]?) :=
        List.filterMap_congr fun j hj =>
          have hj := List.mem_range.1 hj
          lookup_schedule hj (h j hj)
    _ = xs := filterMap_getElem?_range xs

/-- The codewords a driver of nibbles reads are those of the elements it asked for. -/
theorem codewordsRead_encodeDrives (place : Nat → Nat) (order : List Nat) (ns : List Nibble) :
    codewordsRead ((encodeDrives place order ns).map evaluationOf) =
      (schedule order (ns.map encodeNibble)).map Prod.snd := by
  simp [codewordsRead, encodeDrives, schedule_map, resultOf, List.filterMap_map, Function.comp_def]

/-- The nibbles a driver of codewords reads are those of the elements it asked for. -/
theorem nibblesRead_decodeDrives (place : Nat → Nat) (order : List Nat) (cs : List Codeword) :
    nibblesRead ((decodeDrives place order cs).map evaluationOf) =
      (schedule order (cs.map decodeCodeword)).map Prod.snd := by
  simp [nibblesRead, decodeDrives, schedule_map, resultOf, List.filterMap_map, Function.comp_def]

/-- A driver that asks for every nibble of a stream places the stream's codewords. -/
theorem placeResults_encodeDrives (place : Nat → Nat) {order : List Nat} {ns : List Nibble}
    (h : ∀ j < ns.length, j ∈ order) :
    placeResults ns.length order (codewordsRead ((encodeDrives place order ns).map evaluationOf)) =
      ns.map encodeNibble := by
  rw [codewordsRead_encodeDrives, ← List.length_map encodeNibble]
  exact placeResults_schedule (by simpa using h)

/-- A driver that asks for every codeword of a stream places the stream's nibbles. -/
theorem placeResults_decodeDrives (place : Nat → Nat) {order : List Nat} {cs : List Codeword}
    (h : ∀ j < cs.length, j ∈ order) :
    placeResults cs.length order (nibblesRead ((decodeDrives place order cs).map evaluationOf)) =
      cs.map decodeCodeword := by
  rw [nibblesRead_decodeDrives, ← List.length_map decodeCodeword]
  exact placeResults_schedule (by simpa using h)

/-! ## Words as numbers -/

/-- A bit put after a word: twice the word, and the bit. -/
theorem toNat_append_bit {w : Nat} (v : BitVec w) (b : Bit) : (v ++ b).toNat = 2 * v.toNat + b.toNat := by
  rw [BitVec.toNat_append, ← Nat.shiftLeft_add_eq_or_of_lt b.isLt, Nat.shiftLeft_eq]
  omega

/-- The value of a word of the layout is the weighted sum of its fields. -/
theorem layoutCodeword_toNat (d1 d2 d3 d4 p1 p2 p3 : Bit) :
    (layoutCodeword d1 d2 d3 d4 p1 p2 p3).toNat =
      64 * d1.toNat + 32 * d2.toNat + 16 * d3.toNat + 8 * d4.toNat
        + 4 * p1.toNat + 2 * p2.toNat + p3.toNat := by
  simp only [layoutCodeword, toNat_append_bit, BitVec.toNat_ofNat]
  omega

/-! ## The addresses of the table -/

theorem netSyndrome_of_port (s : State) (k : Nat) : s.netSyndrome k = (s.codewordPort k).map syndrome := rfl
theorem netMask_of_net (s : State) (k : Nat) : s.netMask k = (s.netSyndrome k).map romWord := rfl

/-- The three parity bits alone are their own syndrome: with the data bits zero, each check is the parity
bit it covers. -/
theorem syndrome_setWidth (a : Syndrome) : syndrome (a.setWidth 8) = a := by
  revert a; decide

/-! ## The statements -/

/-- Settles O10: the evaluations written down are those of the drives, in order, whatever the state; and
reordered drives have reordered evaluations. -/
theorem scheduleDoesNotMatter : Obligations.ScheduleDoesNotMatter := by
  intro s u ds es hperm
  obtain ⟨t, ht, -, hrecord⟩ := run_withPending ds s
  obtain ⟨v, hv, -, hrecord'⟩ := run_withPending es u
  exact ⟨t, v, ds.map evaluationOf, es.map evaluationOf, ht, hv, hrecord, hrecord', hperm.map evaluationOf⟩

/-- Settles O45: what the run writes down is the evaluation of each drive, and the results read from those,
placed, are the stream mapped. -/
theorem streamOrderIsPositional : Obligations.StreamOrderIsPositional := by
  refine ⟨fun s place order ns h => ?_, fun s place order cs h => ?_⟩
  · obtain ⟨t, hrun, -, hrecord⟩ := run_withPending (encodeDrives place order ns) s
    refine ⟨t, _, hrun, hrecord, ?_⟩
    simp [placeResults_encodeDrives place h]
  · obtain ⟨t, hrun, -, hrecord⟩ := run_withPending (decodeDrives place order cs) s
    refine ⟨t, _, hrun, hrecord, ?_⟩
    simp [placeResults_decodeDrives place h]

/-- Settles O23: the codeword's layout, read as a number. -/
theorem codewordHasItsWeights : Obligations.CodewordHasItsWeights := by
  intro n
  exact layoutCodeword_toNat _ _ _ _ _ _ _

/-- Settles O28: the word put on the decoder's port stands there, and its syndrome is the address. -/
theorem everyRomWordIsReached : Obligations.EveryRomWordIsReached := by
  intro k a s
  refine ⟨_, exec_decode k _ s, ?_⟩
  rw [netMask_of_net, netSyndrome_of_port, note_codewordPort, driveCodeword_port, if_pos rfl]
  simp [syndrome_setWidth]

end Sys2Proof.Machine

/-! PROOFS of the statements on words and ports (spec/30_encoding.md): the port alone selects the operation, so
reading a word on its port and writing it again agree (R57 to R59); a step runs what was read (R63); and no
word is refused, each being a valid codeword or one meaningful bit away from exactly one (R60). -/

namespace Sys2Proof.Machine

/-! ## The word of an instruction on its port, and the instruction of a word on a port -/

/-- A word is read as the instruction of the port it is on, and the words after it are left over. -/
theorem decode_cons (p : Port) (w : Byte) (ws : List Byte) : decode p (w :: ws) = .ok (decodeWord p w, ws) := rfl

/-- The word of an instruction, read on its port, is the instruction. -/
@[simp] theorem decodeWord_wordOf (i : Instr) : decodeWord (portOf i) (wordOf i) = i := instrOf_driveOf i

/-- A word on a port is read as an instruction of that port. -/
@[simp] theorem portOf_decodeWord (p : Port) (w : Byte) : portOf (decodeWord p w) = p := by
  obtain ⟨block, k⟩ := p
  cases block <;> rfl

/-- The low four bits of a byte, as a byte again: the high four masked off. -/
theorem setWidth_nibbleOfByte (w : Byte) : (nibbleOfByte w).setWidth 8 = w &&& 0x0F#8 := by
  revert w; decide

/-- An instruction read on a decoder's port has the whole word as its word. -/
theorem wordOf_decodeWord_decoder (k : Nat) (w : Byte) : wordOf (decodeWord ⟨.decoder, k⟩ w) = w := rfl

/-- An instruction read on an encoder's port has the low four bits as its word (R74). -/
theorem wordOf_decodeWord_encoder (k : Nat) (w : Byte) :
    wordOf (decodeWord ⟨.encoder, k⟩ w) = w &&& 0x0F#8 := setWidth_nibbleOfByte w

/-- The reader takes one word at a time, wherever it stands in the list (R62). -/
theorem decodeAll_eq_map (p : Port) (ws : List Byte) : decodeAll p ws = ws.map (decodeWord p) := by
  induction ws with
  | nil => rfl
  | cons w ws ih => rw [decodeAll, ih, List.map_cons]

/-- The words of a list of instructions: one for each. -/
theorem flatMap_encode (is : List Instr) : is.flatMap encode = is.map wordOf :=
  (List.map_eq_flatMap).symm

/-! ## Placed words -/

@[simp] theorem withPending_withPending (s : State) (ds es : List Drive) :
    (s.withPending ds).withPending es = s.withPending es := rfl
@[simp] theorem withPending_self (s : State) : s.withPending s.pending = s := rfl

/-- A table word that is taken to be for a port is placed as one drive of that port. -/
theorem withFetchWord_of_tablePort {nbits w : Nat} {p : Port} (h : tablePort nbits w = some p) (s : State) :
    s.withFetchWord nbits w = s.withPending (⟨p, BitVec.ofNat 8 w⟩ :: s.pending) := by
  simp [State.withFetchWord, tableDrives, h]

/-- A word below 16 is row ENCODE's, if it is said to have that row's four bits or more. -/
theorem tablePort_of_lt {nbits w : Nat} (hbits : 4 ≤ nbits) (hw : w < 16) :
    tablePort nbits w = some ⟨.encoder, 0⟩ := by
  simp [tablePort, opcodeTable, TableRow.admits, hbits, hw]

/-- A byte from 16 on is row DECODE's, if it is said to have that row's eight bits or more. -/
theorem tablePort_of_ge {nbits w : Nat} (hbits : 8 ≤ nbits) (hlow : 16 ≤ w) (hhigh : w < 256) :
    tablePort nbits w = some ⟨.decoder, 0⟩ := by
  simp [tablePort, opcodeTable, TableRow.admits, hbits, hhigh, Nat.not_lt.2 hlow]

/-- The word of an instruction, bare, is read as the instruction where the table takes it to be for the
instruction's port. -/
theorem decodeTableWord_wordOf {nbits : Nat} {i : Instr}
    (h : tablePort nbits (wordOf i).toNat = some (portOf i)) :
    decodeTableWord nbits (wordOf i).toNat = some i := by
  simp [decodeTableWord, h]

/-! ## The valid codewords are the outputs of ENCODE -/

theorem isValid_encodeNibble (n : Nibble) : isValid (encodeNibble n) := by
  revert n; decide

theorem encodeNibble_dataField_of_isValid : ∀ {c : Codeword}, isValid c → encodeNibble (dataField c) = c := by
  decide

theorem toNat_lt_of_isValid : ∀ {c : Codeword}, isValid c → c.toNat < 128 := by
  decide

/-- ENCODE is linear (spec/40_encoder.md R75). -/
theorem encodeNibble_xor (m n : Nibble) : encodeNibble (m ^^^ n) = encodeNibble m ^^^ encodeNibble n := by
  revert m n; decide

theorem encodeNibble_inj {m n : Nibble} : encodeNibble m = encodeNibble n ↔ m = n :=
  ⟨fun h => by simpa using congrArg dataField h, congrArg encodeNibble⟩

/-- With bit 7 clear, a word that passes the three checks is the codeword of its data bits. -/
theorem encodeNibble_dataField_of_syndrome {c : Codeword} (hlt : c.toNat < 128) (h : syndrome c = 0#3) :
    encodeNibble (dataField c) = c := by
  revert c; decide

/-! ## The one valid codeword beside a word -/

/-- The mask at an address is the error whose syndrome is the address (spec/41_decoder.md R89). -/
@[simp] theorem syndrome_romWord (a : Syndrome) : syndrome (romWord a) = a := by
  revert a; decide

theorem romWord_toNat_lt (a : Syndrome) : (romWord a).toNat < 128 := by
  revert a; decide

/-- A corrected word passes the three checks (R90). -/
@[simp] theorem syndrome_corrected (c : Codeword) : syndrome (corrected c) = 0#3 := by
  rw [corrected, syndrome_xor, flipMask, syndrome_romWord, BitVec.xor_self]

/-- With bit 7 clear, the corrected word is a codeword. -/
theorem encodeNibble_dataField_corrected {c : Codeword} (hlt : c.toNat < 128) :
    encodeNibble (dataField (corrected c)) = corrected c :=
  encodeNibble_dataField_of_syndrome (Nat.xor_lt_two_pow (n := 7) hlt (romWord_toNat_lt _))
    (syndrome_corrected c)

/-- A codeword with a lone flip on it has one meaningful bit set only if the codeword is 0: the others
have three at least (R75). -/
theorem meaningfulWeight_flipped_eq_one_iff (n : Nibble) {a : Syndrome} (ha : a ≠ 0#3) :
    meaningfulWeight (encodeNibble n ^^^ romWord a) = 1 ↔ n = 0#4 := by
  revert n a; decide

/-- The valid codeword one meaningful bit away from a word that is none is its corrected word: the word is
that codeword with a lone flip on it, and ENCODE is linear. -/
theorem meaningfulDistance_eq_one_iff {c v : Codeword} (hlt : c.toNat < 128) (hc : ¬ isValid c)
    (hv : isValid v) : meaningfulDistance c v = 1 ↔ v = corrected c := by
  have hsyn : syndrome c ≠ 0#3 := fun h =>
    hc (encodeNibble_dataField_of_syndrome hlt h ▸ isValid_encodeNibble _)
  obtain ⟨m, hm⟩ : ∃ m, encodeNibble m = corrected c := ⟨_, encodeNibble_dataField_corrected hlt⟩
  obtain ⟨n, rfl⟩ : ∃ n, encodeNibble n = v := ⟨_, encodeNibble_dataField_of_isValid hv⟩
  have hdiff : c ^^^ encodeNibble n = encodeNibble (m ^^^ n) ^^^ romWord (syndrome c) := by
    rw [encodeNibble_xor, hm, corrected, flipMask]
    ac_nf
    simp
  rw [meaningfulDistance, hdiff, meaningfulWeight_flipped_eq_one_iff _ hsyn, ← hm, encodeNibble_inj,
    BitVec.xor_eq_zero_iff, eq_comm]

/-- Exactly one valid codeword is one meaningful bit away from a word with bit 7 clear that is none. -/
theorem length_filter_meaningfulDistance {c : Codeword} (hlt : c.toNat < 128) (hc : ¬ isValid c) :
    (validCodewords.filter (fun v => meaningfulDistance c v == 1)).length = 1 := by
  have hvalid : isValid (corrected c) := encodeNibble_dataField_corrected hlt ▸ isValid_encodeNibble _
  calc (validCodewords.filter (fun v => meaningfulDistance c v == 1)).length
      = validCodewords.countP (fun v => v == corrected c) := by
        rw [← List.countP_eq_length_filter]
        exact List.countP_congr fun v hv => by simp [meaningfulDistance_eq_one_iff hlt hc hv]
    _ = 1 := List.count_eq_one_of_mem (by decide) hvalid

/-- The valid codewords among the words below n: all sixteen of them. -/
theorem countP_isValid_range {n : Nat} (hlow : 128 ≤ n) (hhigh : n ≤ 256) :
    (List.range n).countP (fun w => decide (isValid (BitVec.ofNat 8 w))) = 16 := by
  have hperm : ((List.range n).filter (fun w => decide (isValid (BitVec.ofNat 8 w)))).Perm
      (validCodewords.map BitVec.toNat) := by
    refine (List.perm_ext_iff_of_nodup (List.nodup_range.filter _) (by decide)).2 fun w => ?_
    simp only [List.mem_filter, List.mem_range, decide_eq_true_eq, List.mem_map]
    constructor
    · rintro ⟨hw, hvalid⟩
      exact ⟨_, hvalid, (BitVec.toNat_ofNat w 8).trans (Nat.mod_eq_of_lt (by omega))⟩
    · rintro ⟨v, hv, rfl⟩
      exact ⟨(toNat_lt_of_isValid hv).trans_le hlow, by simpa using hv⟩
  rw [List.countP_eq_length_filter, hperm.length_eq]
  rfl

/-! ## The statements -/

/-- Settles O17: word by word, reading the word written is the instruction, and writing the instruction
read is the word, or its low four bits on an encoder's port. -/
theorem decodeEncodeAgree : Obligations.DecodeEncodeAgree := by
  refine ⟨fun p is h => ?_, fun k ws => ?_, fun k ws => ?_, fun p w ws => ?_⟩
  · rw [flatMap_encode, decodeAll_eq_map, List.map_map]
    refine (List.map_congr_left fun i hi => ?_).trans (List.map_id is)
    rw [Function.comp_apply, ← h i hi, decodeWord_wordOf, id]
  · rw [decodeAll_eq_map, flatMap_encode, List.map_map]
    exact (List.map_congr_left fun w _ => wordOf_decodeWord_decoder k w).trans (List.map_id ws)
  · rw [decodeAll_eq_map, flatMap_encode, List.map_map]
    exact List.map_congr_left fun w _ => wordOf_decodeWord_encoder k w
  · exact ⟨decode_cons p w ws, portOf_decodeWord p w⟩

/-- Settles O6: the instruction decoded is the one the drive asks for. -/
theorem stepRunsTheDecoded : Obligations.StepRunsTheDecoded := by
  intro s d ds i hpending hdecode _
  rw [decode_cons] at hdecode
  cases hdecode
  exact step_cons hpending

/-- Settles O16: the words of the formats, read on their ports. -/
theorem specWordsDecode : Obligations.SpecWordsDecode :=
  ⟨decode_cons ⟨.encoder, 0⟩ _ [], decode_cons ⟨.encoder, 3⟩ _ [], decode_cons ⟨.decoder, 0⟩ _ [],
    decode_cons ⟨.decoder, 2⟩ _ [0x80#8]⟩

/-- Settles O18: the word placed stands first in the list, for the port the table takes it to be for; and
in each range the table takes the word to be for the port of the instruction whose word it is. -/
theorem tableWordRuns : Obligations.TableWordRuns := by
  refine ⟨fun s nbits w i h => ?_, fun n => ?_, fun c hc => ?_⟩
  · obtain ⟨p, hp, rfl⟩ := Option.map_eq_some_iff.1 h
    rw [withFetchWord_of_tablePort hp, step_cons (withPending_pending s _), withPending_withPending,
      withPending_self]
    rfl
  · have hword : (wordOf (.encode 0 n)).toNat = n.toNat := BitVec.toNat_setWidth_of_le (by decide)
    rw [← hword]
    exact decodeTableWord_wordOf (tablePort_of_lt (by decide) (hword ▸ n.isLt))
  · exact decodeTableWord_wordOf (i := .decode 0 c) (tablePort_of_ge (by decide) hc c.isLt)

/-- Settles O20: every evaluation answers. Of the words with bit 7 clear, those that are no codeword all have
exactly one beside them, so they are the 128 without the 16. -/
theorem everyWordIsLegal : Obligations.EveryWordIsLegal := by
  refine ⟨fun k n s => ⟨_, answers_resultOf (.encode k n) s⟩,
    fun k c s => ⟨_, answers_resultOf (.decode k c) s⟩, ?_, ?_⟩
  · rw [← List.countP_eq_length_filter]
    exact countP_isValid_range (by decide) (by decide)
  · have hinvalid : ∀ w ∈ List.range 128,
        (decide (¬ isValid (BitVec.ofNat 8 w)) &&
          (validCodewords.filter (fun v => meaningfulDistance (BitVec.ofNat 8 w) v == 1)).length == 1) =
        decide (¬ decide (isValid (BitVec.ofNat 8 w)) = true) := by
      intro w hw
      have hlt : (BitVec.ofNat 8 w).toNat < 128 := (Nat.mod_le w _).trans_lt (List.mem_range.1 hw)
      by_cases h : isValid (BitVec.ofNat 8 w)
      · simp [h]
      · simp [h, length_filter_meaningfulDistance hlt h]
    have hsplit := List.length_eq_countP_add_countP
      (fun w => decide (isValid (BitVec.ofNat 8 w))) (l := List.range 128)
    rw [List.length_range, countP_isValid_range (by decide) (by decide)] at hsplit
    rw [List.filter_congr hinvalid, ← List.countP_eq_length_filter]
    omega

end Sys2Proof.Machine

/-! PROOFS of the statements on the encoder (spec/40_encoder.md): what ENCODE answers bit by bit (R70 to R72),
what it leaves as it was (R73), the masking of a wider argument (R74), the properties and the other forms of
the code (R75, R76); and the invariant that every step keeps. -/

namespace Sys2Proof.Machine

/-! ## Bits of a codeword and of a syndrome, by their layouts (spec/30_encoding.md R52, R55) -/

theorem getLsbD_tap {w : Nat} (v : BitVec w) (i : Nat) : (tap v i).getLsbD 0 = v.getLsbD i := by
  simp [tap]

theorem getLsbD_append_bit_zero {w : Nat} (v : BitVec w) (b : Bit) :
    (v ++ b).getLsbD 0 = b.getLsbD 0 := by
  rw [BitVec.getLsbD_append, if_pos Nat.one_pos]

theorem getLsbD_append_bit_succ {w : Nat} (v : BitVec w) (b : Bit) (i : Nat) :
    (v ++ b).getLsbD (i + 1) = v.getLsbD i := by
  rw [BitVec.getLsbD_append, if_neg (by omega), Nat.add_sub_cancel]

/-- Bit 7 of a codeword is zero (spec/40_encoder.md R70). -/
theorem getLsbD_encodeNibble_7 (n : Nibble) : (encodeNibble n).getLsbD 7 = false := by
  simp only [encodeNibble, layoutCodeword, getLsbD_append_bit_succ]
  rfl

/-- Bits 6 to 3 of a codeword are the nibble (R70). -/
theorem getLsbD_encodeNibble_data (n : Nibble) {i : Nat} (hi : i < 4) :
    (encodeNibble n).getLsbD (i + 3) = n.getLsbD i := by
  have h : (dataField (encodeNibble n)).getLsbD i = n.getLsbD i := by rw [dataField_encodeNibble]
  simpa [dataField, hi, Nat.add_comm] using h

/-- Bit 2 of a codeword is the parity of d2, d3, d4 (R70). -/
theorem getLsbD_encodeNibble_2 (n : Nibble) :
    (encodeNibble n).getLsbD 2 = (n.getLsbD 2 ^^ n.getLsbD 1 ^^ n.getLsbD 0) := by
  simp only [encodeNibble, layoutCodeword, getLsbD_append_bit_zero, getLsbD_append_bit_succ,
    parityP1, nibbleD2, nibbleD3, nibbleD4, BitVec.getLsbD_xor, getLsbD_tap]

/-- Bit 1 of a codeword is the parity of d1, d3, d4 (R70). -/
theorem getLsbD_encodeNibble_1 (n : Nibble) :
    (encodeNibble n).getLsbD 1 = (n.getLsbD 3 ^^ n.getLsbD 1 ^^ n.getLsbD 0) := by
  simp only [encodeNibble, layoutCodeword, getLsbD_append_bit_zero, getLsbD_append_bit_succ,
    parityP2, nibbleD1, nibbleD3, nibbleD4, BitVec.getLsbD_xor, getLsbD_tap]

/-- Bit 0 of a codeword is the parity of d1, d2, d4 (R70). -/
theorem getLsbD_encodeNibble_0 (n : Nibble) :
    (encodeNibble n).getLsbD 0 = (n.getLsbD 3 ^^ n.getLsbD 2 ^^ n.getLsbD 0) := by
  simp only [encodeNibble, layoutCodeword, getLsbD_append_bit_zero, parityP3, nibbleD1, nibbleD2, nibbleD4,
    BitVec.getLsbD_xor, getLsbD_tap]

/-- Bit 2 of a syndrome is the check of p1 (spec/41_decoder.md R86). -/
theorem getLsbD_syndrome_2 (c : Codeword) :
    (syndrome c).getLsbD 2 = (c.getLsbD 5 ^^ c.getLsbD 4 ^^ c.getLsbD 3 ^^ c.getLsbD 2) := by
  simp only [syndrome, layoutSyndrome, getLsbD_append_bit_succ, checkS1, codewordD2, codewordD3, codewordD4,
    codewordP1, BitVec.getLsbD_xor, getLsbD_tap]

/-- Bit 1 of a syndrome is the check of p2 (R86). -/
theorem getLsbD_syndrome_1 (c : Codeword) :
    (syndrome c).getLsbD 1 = (c.getLsbD 6 ^^ c.getLsbD 4 ^^ c.getLsbD 3 ^^ c.getLsbD 1) := by
  simp only [syndrome, layoutSyndrome, getLsbD_append_bit_zero, getLsbD_append_bit_succ,
    checkS2, codewordD1, codewordD3, codewordD4, codewordP2, BitVec.getLsbD_xor, getLsbD_tap]

/-- Bit 0 of a syndrome is the check of p3 (R86). -/
theorem getLsbD_syndrome_0 (c : Codeword) :
    (syndrome c).getLsbD 0 = (c.getLsbD 6 ^^ c.getLsbD 5 ^^ c.getLsbD 3 ^^ c.getLsbD 0) := by
  simp only [syndrome, layoutSyndrome, getLsbD_append_bit_zero, checkS3, codewordD1, codewordD2, codewordD4,
    codewordP3, BitVec.getLsbD_xor, getLsbD_tap]

/-! ## Bit 7 cleared: no check, no data bit and no distance reads it (spec/41_decoder.md R94, R96) -/

theorem getLsbD_and_0x7F (c : Codeword) {i : Nat} (hi : i < 7) :
    (c &&& 0x7F#8).getLsbD i = c.getLsbD i := by
  have hmask : ∀ j < 7, (0x7F#8).getLsbD j = true := by decide
  rw [BitVec.getLsbD_and, hmask i hi, Bool.and_true]

theorem toNat_and_0x7F_lt (c : Codeword) : (c &&& 0x7F#8).toNat < 128 :=
  Nat.and_lt_two_pow (n := 7) _ (by decide)

@[simp] theorem syndrome_and_0x7F (c : Codeword) : syndrome (c &&& 0x7F#8) = syndrome c := by
  simp [syndrome, checkS1, checkS2, checkS3, codewordD1, codewordD2, codewordD3, codewordD4, codewordP1,
    codewordP2, codewordP3, tap_eq_ofBool]

@[simp] theorem dataField_and_0x7F (c : Codeword) : dataField (c &&& 0x7F#8) = dataField c := by
  refine BitVec.eq_of_getLsbD_eq fun i hi => ?_
  simp [dataField, hi, getLsbD_and_0x7F c (show 3 + i < 7 by omega)]

/-- DECODE does not read bit 7. -/
@[simp] theorem decodeCodeword_and_0x7F (c : Codeword) :
    decodeCodeword (c &&& 0x7F#8) = decodeCodeword c := by
  simp only [decodeCodeword, corrected, flipMask, dataField_xor, syndrome_and_0x7F, dataField_and_0x7F]

theorem meaningfulDistance_and_0x7F (c d : Codeword) :
    meaningfulDistance (c &&& 0x7F#8) d = meaningfulDistance c d := by
  refine congrArg List.length (List.filter_congr fun i hi => ?_)
  rw [BitVec.getLsbD_xor, BitVec.getLsbD_xor, getLsbD_and_0x7F c (List.mem_range.1 hi)]

/-! ## Every result is sound -/

/-- A word of the table has at most one bit set (spec/41_decoder.md R89). -/
theorem meaningfulWeight_romWord_le_one (a : Syndrome) : meaningfulWeight (romWord a) ≤ 1 := by
  revert a; decide

/-- The correction changes at most one meaningful bit (R90). -/
theorem meaningfulDistance_corrected_le_one (c : Codeword) : meaningfulDistance c (corrected c) ≤ 1 := by
  rw [meaningfulDistance, corrected, ← BitVec.xor_assoc, BitVec.xor_self, BitVec.zero_xor]
  exact meaningfulWeight_romWord_le_one _

/-- With bit 7 clear, the corrected word is valid. -/
theorem isValid_corrected {c : Codeword} (hlt : c.toNat < 128) : isValid (corrected c) :=
  encodeNibble_dataField_corrected hlt ▸ isValid_encodeNibble _

/-- The output word of an instruction meets the codec's guarantee. For DECODE the valid codeword is the
corrected word with bit 7 cleared before. -/
theorem sound_resultOf (i : Instr) : Evaluation.sound ⟨i, resultOf i⟩ := by
  cases i with
  | encode k n => exact ⟨isValid_encodeNibble n, dataField_encodeNibble n⟩
  | decode k c =>
    refine ⟨corrected (c &&& 0x7F#8), isValid_corrected (toNat_and_0x7F_lt c), ?_, ?_⟩
    · exact decodeCodeword_and_0x7F c
    · rw [← meaningfulDistance_and_0x7F]
      exact meaningfulDistance_corrected_le_one _

/-! ## The invariant -/

/-- The list of evaluations still to be done has no part in the invariant. -/
theorem inv_withPending {s : State} (h : s.Inv) (ds : List Drive) : (s.withPending ds).Inv :=
  ⟨h.nibbleWf, h.codewordWf, h.recorded, h.nibbleHeld, h.wordHeld⟩

/-- An evaluation keeps the invariant: the word put on the port is the last one the record names for it. -/
theorem inv_of_exec {i : Instr} {s t : State} (h : s.Inv) (hexec : exec i s = .next t) : t.Inv := by
  rw [exec_eq] at hexec
  cases hexec
  have hrecorded : ∀ e ∈ s.record ++ [⟨i, resultOf i⟩], e.sound :=
    List.forall_mem_append.2 ⟨h.recorded, List.forall_mem_singleton.2 (sound_resultOf i)⟩
  cases i with
  | encode k n =>
    refine ⟨portsWf_holdOn k n _ h.nibbleWf, h.codewordWf, hrecorded, fun j => ?_, fun j => ?_⟩
    · simp [driveNibble_port, h.nibbleHeld]
    · simp [h.wordHeld]
  | decode k c =>
    refine ⟨h.nibbleWf, portsWf_holdOn k c _ h.codewordWf, hrecorded, fun j => ?_, fun j => ?_⟩
    · simp [h.nibbleHeld]
    · simp [driveCodeword_port, h.wordHeld]

/-! ## Nets of a decoder whose port is untouched (spec/10_state.md R18, R19) -/

/-- Every net of a decoder is read off its input port. -/
theorem decoderNets_congr {s t : State} {j : Nat} (h : t.codewordPort j = s.codewordPort j) :
    t.codewordPort j = s.codewordPort j ∧ t.nibbleOut j = s.nibbleOut j ∧
    t.netSyndrome j = s.netSyndrome j ∧ t.netMask j = s.netMask j ∧ t.netCorrected j = s.netCorrected j :=
  ⟨h, congrArg (Option.map decodeCodeword) h, congrArg (Option.map syndrome) h,
    congrArg (fun p => (p.map syndrome).map romWord) h, congrArg (Option.map corrected) h⟩

/-! ## The argument masked (spec/40_encoder.md R74) -/

theorem instrOf_encoder (k : Nat) (w : Byte) : instrOf ⟨⟨.encoder, k⟩, w⟩ = .encode k (nibbleOfByte w) := rfl

/-- The word of the low four bits asks for what the byte asks for. -/
theorem instrOf_encoder_and_0x0F (k : Nat) (w : Byte) :
    instrOf ⟨⟨.encoder, k⟩, w &&& 0x0F#8⟩ = instrOf ⟨⟨.encoder, k⟩, w⟩ := by
  rw [← setWidth_nibbleOfByte]
  exact instrOf_driveOf (.encode k (nibbleOfByte w))

/-! ## The code as a table and as a linear map (spec/30_encoding.md R54) -/

/-- ENCODE of a nibble is its row of the table of valid codewords. -/
theorem validCodewords_getElem? (n : Nibble) : validCodewords[n.toNat]? = some (encodeNibble n) := by
  revert n; decide

theorem encodeByTable_eq (n : Nibble) : encodeByTable n = encodeNibble n := by
  have hrow : encodeTable.toList[n.toNat]? = some (encodeNibble n) := validCodewords_getElem? n
  obtain ⟨_, h⟩ := List.getElem?_eq_some_iff.1 hrow
  exact h

/-- A nibble is the XOR of the one-bit nibbles its set bits select. -/
theorem nibble_of_units (n : Nibble) :
    (if nibbleD1 n = 1#1 then 0x8#4 else 0#4) ^^^ (if nibbleD2 n = 1#1 then 0x4#4 else 0#4)
      ^^^ (if nibbleD3 n = 1#1 then 0x2#4 else 0#4) ^^^ (if nibbleD4 n = 1#1 then 0x1#4 else 0#4) = n := by
  revert n; decide

/-- A row of G is the codeword of a one-bit nibble; not selected, it is that of 0. -/
theorem generatorRow_encodeNibble (b : Bit) (n : Nibble) :
    generatorRow b (encodeNibble n) = encodeNibble (if b = 1#1 then n else 0#4) :=
  (apply_ite encodeNibble (b = 1#1) n 0#4).symm

/-- The rows of G span what ENCODE gives, by linearity. -/
theorem encodeByGenerator_eq (n : Nibble) : encodeByGenerator n = encodeNibble n := by
  calc encodeByGenerator n
      = generatorRow (nibbleD1 n) (encodeNibble 0x8#4) ^^^ generatorRow (nibbleD2 n) (encodeNibble 0x4#4)
          ^^^ generatorRow (nibbleD3 n) (encodeNibble 0x2#4)
          ^^^ generatorRow (nibbleD4 n) (encodeNibble 0x1#4) := rfl
    _ = encodeNibble n := by
        simp only [generatorRow_encodeNibble, ← encodeNibble_xor, nibble_of_units]

/-- Every codeword but that of 0 has three bits set at least (spec/40_encoder.md R75). -/
theorem three_le_weight_encodeNibble {n : Nibble} (h : n ≠ 0#4) :
    3 ≤ ((List.range 8).filter (fun i => (encodeNibble n).getLsbD i)).length := by
  revert n; decide

/-- The data bits of a codeword are at its upper end, under a zero bit 7 (R75). -/
theorem encodeNibble_ushiftRight (n : Nibble) : encodeNibble n >>> 3 = n.setWidth 8 := by
  refine BitVec.eq_of_getLsbD_eq fun i hi => ?_
  rw [BitVec.getLsbD_ushiftRight, BitVec.getLsbD_setWidth, Nat.add_comm 3 i]
  rcases Nat.lt_trichotomy i 4 with hlt | rfl | hgt
  · simp [getLsbD_encodeNibble_data n hlt, hi]
  · rw [getLsbD_encodeNibble_7]
    simp
  · simp [BitVec.getLsbD_of_ge _ _ (show 8 ≤ i + 3 by omega), BitVec.getLsbD_of_ge n i hgt.le]

/-! ## The statements -/

/-- Settles O12: a step does nothing or is one evaluation, and an evaluation keeps the invariant. -/
theorem stepKeepsInv : Obligations.StepKeepsInv := by
  intro s t hs hstep
  obtain ⟨-, rfl⟩ | ⟨d, ds, -, hexec⟩ := step_cases hstep
  · exact hs
  · exact inv_of_exec (inv_withPending hs ds) hexec

/-- Settles O3: only the port list of the encoders is written, and there only the encoder's own port. -/
theorem encodeFrame : Obligations.EncodeFrame := by
  intro k n s
  refine ⟨_, .codeword (encodeNibble n), exec_encode k n s, fun j hj => ?_, fun j => decoderNets_congr ?_, ?_⟩
  · have hport : (s.driveNibble k n).nibblePort j = s.nibblePort j := by
      rw [driveNibble_port, if_neg hj.symm]
    exact ⟨hport, congrArg (Option.map encodeNibble) hport⟩
  · simp
  · simp

/-- Settles O1: the word put on the port stands there, and the output is its codeword, bit by bit. -/
theorem encodeAnswersCodeword : Obligations.EncodeAnswersCodeword := by
  intro k n s
  have hport : (s.driveNibble k n).nibblePort k = some n := by rw [driveNibble_port, if_pos rfl]
  exact ⟨_, encodeNibble n, exec_encode k n s, hport, congrArg (Option.map encodeNibble) hport, note_record ..,
    getLsbD_encodeNibble_7 n, fun i hi => getLsbD_encodeNibble_data n hi, getLsbD_encodeNibble_2 n,
    getLsbD_encodeNibble_1 n, getLsbD_encodeNibble_0 n⟩

/-- Settles O19: the byte and its low four bits ask for the same instruction. -/
theorem encoderMasksItsArgument : Obligations.EncoderMasksItsArgument := by
  refine ⟨fun k w s ds => ?_, fun m v => ?_⟩
  · refine ⟨_, step_withPending_cons s _ ds, ?_, ?_⟩
    · rw [step_withPending_cons, instrOf_encoder_and_0x0F]
    · rw [instrOf_encoder, codewordOut_of_port]
      simp [driveNibble_port, nibbleOfByte, BitVec.setWidth_eq_extractLsb']
  · refine congrArg encodeNibble (BitVec.eq_of_getLsbD_eq fun i hi => ?_)
    simp [hi]

/-- Settles O21: the three equations are the three checks of the syndrome, which is 0. -/
theorem paritiesAreEven : Obligations.ParitiesAreEven := by
  intro k n s
  have hcheck : ∀ i, (syndrome (encodeNibble n)).getLsbD i = false := by simp
  refine ⟨encodeNibble n, answers_resultOf (.encode k n) s, ?_, ?_, ?_⟩
  · rw [← hcheck 2, getLsbD_syndrome_2]
    simp only [Bool.xor_comm, Bool.xor_left_comm]
  · rw [← hcheck 1, getLsbD_syndrome_1]
    simp only [Bool.xor_comm, Bool.xor_left_comm]
  · rw [← hcheck 0, getLsbD_syndrome_0]
    simp only [Bool.xor_comm, Bool.xor_left_comm]

/-- Settles O22: the output is a valid codeword, the one at the nibble. -/
theorem encodeGivesTheTableRow : Obligations.EncodeGivesTheTableRow := by
  intro k n s
  exact ⟨encodeNibble n, answers_resultOf (.encode k n) s, getLsbD_encodeNibble_7 n,
    Nat.le_of_lt_succ (toNat_lt_of_isValid (isValid_encodeNibble n)), validCodewords_getElem? n⟩

/-- Settles O24: by linearity, the distance of two codewords is the weight of a third, and the complement
adds the codeword of 0xF. -/
theorem encodeProperties : Obligations.EncodeProperties := by
  refine ⟨fun n => ⟨dataField_encodeNibble n, encodeNibble_ushiftRight n⟩, fun a b => encodeNibble_inj.1,
    encodeNibble_xor, rfl, fun a b hab => ?_, fun n => encodeNibble_xor n 0xF#4, syndrome_encodeNibble⟩
  rw [← encodeNibble_xor]
  exact three_le_weight_encodeNibble (mt BitVec.xor_eq_zero_iff.1 hab)

/-- Settles O25: the table's row, the rows of G by linearity, and the codeword bit by bit. -/
theorem encodeFormsAgree : Obligations.EncodeFormsAgree := by
  intro n
  exact ⟨encodeByTable_eq n, encodeByGenerator_eq n, getLsbD_encodeNibble_7 n,
    getLsbD_encodeNibble_data n (i := 3) (by decide), getLsbD_encodeNibble_data n (i := 2) (by decide),
    getLsbD_encodeNibble_data n (i := 1) (by decide), getLsbD_encodeNibble_data n (i := 0) (by decide),
    getLsbD_encodeNibble_2 n, getLsbD_encodeNibble_1 n, getLsbD_encodeNibble_0 n⟩

end Sys2Proof.Machine

/-! PROOFS of the statements on the decoder (spec/41_decoder.md): what DECODE answers by its four steps (R85), what
it leaves as it was (R93), the syndrome and the table (R87, R89, R98), the corrected word (R90), the other forms
(R92), and the round trips (R94 to R97, R99). All of the last rest on one fact: apart from bit 7, a received word
is the codeword of its decoded nibble with the flip on it that its syndrome names (`and_0x7F_eq`). -/

namespace Sys2Proof.Machine

/-! ## The nets of a decoder after DECODE (spec/10_state.md R19) -/

theorem netCorrected_of_port (s : State) (k : Nat) : s.netCorrected k = (s.codewordPort k).map corrected := rfl

/-- The word of a DECODE stands on its port. -/
theorem codewordPort_of_exec_decode {k : Nat} {c : Codeword} {s t : State}
    (h : exec (.decode k c) s = .next t) : t.codewordPort k = some c := by
  rw [exec_decode] at h
  cases h
  rw [note_codewordPort, driveCodeword_port, if_pos rfl]

/-- A decoder's nets, by the word on its port: the four steps of DECODE (R85). -/
theorem decoderNets_of_port {t : State} {k : Nat} {c : Codeword} (h : t.codewordPort k = some c) :
    t.netSyndrome k = some (syndrome c) ∧ t.netMask k = some (flipMask c) ∧
    t.netCorrected k = some (corrected c) ∧ t.nibbleOut k = some (decodeCodeword c) := by
  rw [netMask_of_net, netSyndrome_of_port, netCorrected_of_port, nibbleOut_of_port, h]
  exact ⟨rfl, rfl, rfl, rfl⟩

/-- A word that decodes to a nibble answers it, in every state. -/
theorem answers_decode {c : Codeword} {n : Nibble} (h : decodeCodeword c = n) (j : Nat) (s : State) :
    Answers (.decode j c) s (.nibble n) :=
  h ▸ answers_resultOf (.decode j c) s

/-- ENCODE completes, and its codeword is on the output. -/
theorem exec_encode_codewordOut (k : Nat) (n : Nibble) (s : State) :
    ∃ t, exec (.encode k n) s = .next t ∧ t.codewordOut k = some (encodeNibble n) := by
  refine ⟨_, exec_encode k n s, ?_⟩
  rw [codewordOut_of_port, note_nibblePort, driveNibble_port, if_pos rfl, Option.map_some]

/-! ## The code and the table (R87, R89) -/

theorem exists_encodeNibble_of_isValid {c : Codeword} (h : isValid c) : ∃ n, encodeNibble n = c :=
  ⟨_, encodeNibble_dataField_of_isValid h⟩

/-- The syndrome of a codeword with an error on it is that of the error alone. -/
theorem syndrome_encodeNibble_xor (n : Nibble) (e : Mask) : syndrome (encodeNibble n ^^^ e) = syndrome e := by
  rw [syndrome_xor, syndrome_encodeNibble, BitVec.zero_xor]

theorem syndromeRom_getElem? (a : Syndrome) : syndromeRom.toList[a.toNat]? = some (romWord a) := by
  revert a; decide

theorem reducedRom_getElem? (a : Syndrome) : reducedRom.toList[a.toNat]? = some (dataField (romWord a)) := by
  revert a; decide

theorem romWord_eq_lone_flip {a : Syndrome} (ha : a ≠ 0#3) : ∃ i < 7, romWord a = 1#8 <<< i := by
  revert a; decide

/-- No mask has bit 7 set. -/
@[simp] theorem romWord_and_0x7F (a : Syndrome) : romWord a &&& 0x7F#8 = romWord a := by
  revert a; decide

theorem meaningfulWeight_romWord (a : Syndrome) : meaningfulWeight (romWord a) = if a = 0#3 then 0 else 1 := by
  revert a; decide

/-- How many data bits a mask inverts. -/
theorem length_filter_dataField_romWord (a : Syndrome) :
    ((List.range 4).filter (fun i => (dataField (romWord a)).getLsbD i)).length =
      if a ∈ [3#3, 5#3, 6#3, 7#3] then 1 else 0 := by
  revert a; decide

/-- The data bits of a mask, as gates on the checks (R92). -/
theorem dataField_romWord_layoutSyndrome (s1 s2 s3 : Bit) :
    dataField (romWord (layoutSyndrome s1 s2 s3)) =
      (~~~s1 &&& s2 &&& s3) ++ (s1 &&& ~~~s2 &&& s3) ++ (s1 &&& s2 &&& ~~~s3) ++ (s1 &&& s2 &&& s3) := by
  revert s1 s2 s3; decide

/-! ## The meaningful bits of a word: bit 7 cleared -/

theorem xor_and_0x7F (c e : Codeword) : (c ^^^ e) &&& 0x7F#8 = (c &&& 0x7F#8) ^^^ (e &&& 0x7F#8) := by
  ext i hi
  simp [Bool.and_xor_distrib_right]

theorem and_0x7F_eq_ofNat_mod (c : Codeword) : c &&& 0x7F#8 = BitVec.ofNat 8 (c.toNat % 128) := by
  refine BitVec.eq_of_toNat_eq ?_
  calc (c &&& 0x7F#8).toNat
      = c.toNat &&& 2 ^ 7 - 1 := BitVec.toNat_and c 0x7F#8
    _ = c.toNat % 128 := Nat.and_two_pow_sub_one_eq_mod c.toNat 7
    _ = (BitVec.ofNat 8 (c.toNat % 128)).toNat := by
        rw [BitVec.toNat_ofNat]
        omega

theorem meaningfulWeight_and_0x7F (e : Mask) : meaningfulWeight (e &&& 0x7F#8) = meaningfulWeight e := by
  simpa [meaningfulDistance] using meaningfulDistance_and_0x7F e 0#8

theorem meaningfulDistance_comm (c d : Codeword) : meaningfulDistance c d = meaningfulDistance d c :=
  congrArg meaningfulWeight (BitVec.xor_comm c d)

/-- DECODE is the same whichever way bit 7 is (R94). -/
theorem decodeCodeword_xor_0x80 (c : Codeword) : decodeCodeword (c ^^^ 0x80#8) = decodeCodeword c := by
  have h : (c ^^^ 0x80#8) &&& 0x7F#8 = c &&& 0x7F#8 := by
    rw [xor_and_0x7F]
    exact BitVec.xor_zero
  rw [← decodeCodeword_and_0x7F, h, decodeCodeword_and_0x7F]

/-! ## The corrected word (R90, R99) -/

/-- What DECODE gives, encoded again, is the corrected word with bit 7 cleared. -/
theorem encodeNibble_decodeCodeword (c : Codeword) :
    encodeNibble (decodeCodeword c) = corrected c &&& 0x7F#8 := by
  calc encodeNibble (decodeCodeword c)
      = encodeNibble (dataField (corrected (c &&& 0x7F#8))) :=
        congrArg encodeNibble (decodeCodeword_and_0x7F c).symm
    _ = corrected (c &&& 0x7F#8) := encodeNibble_dataField_corrected (toNat_and_0x7F_lt c)
    _ = corrected c &&& 0x7F#8 := by simp [corrected, flipMask, xor_and_0x7F]

/-- Apart from bit 7, a word is the codeword of its decoded nibble with the flip its syndrome names. -/
theorem and_0x7F_eq (c : Codeword) : c &&& 0x7F#8 = encodeNibble (decodeCodeword c) ^^^ romWord (syndrome c) := by
  rw [encodeNibble_decodeCodeword, corrected, flipMask, xor_and_0x7F, romWord_and_0x7F, BitVec.xor_assoc,
    BitVec.xor_self, BitVec.xor_zero]

theorem meaningfulDistance_corrected (c : Codeword) :
    meaningfulDistance c (corrected c) = if syndrome c = 0#3 then 0 else 1 := by
  rw [meaningfulDistance, corrected, ← BitVec.xor_assoc, BitVec.xor_self, BitVec.zero_xor]
  exact meaningfulWeight_romWord _

theorem getLsbD_corrected_7 (c : Codeword) : (corrected c).getLsbD 7 = c.getLsbD 7 := by
  have h : (flipMask c).getLsbD 7 = false := Nat.testBit_lt_two_pow (romWord_toNat_lt _)
  rw [corrected, BitVec.getLsbD_xor, h, Bool.xor_false]

/-! ## Which words decode to a nibble (R96) -/

/-- A codeword with a lone flip, or none, on it has one meaningful bit set at the most exactly when it is the
codeword of 0: the others have three bits set at least (R75). -/
theorem meaningfulWeight_flipped_le_one_iff (n : Nibble) (a : Syndrome) :
    meaningfulWeight (encodeNibble n ^^^ romWord a) ≤ 1 ↔ n = 0#4 := by
  revert n a; decide

/-- The error patterns that decode to 0 are those of one meaningful bit or none. -/
theorem decodeCodeword_eq_zero_iff (e : Mask) : decodeCodeword e = 0#4 ↔ meaningfulWeight e ≤ 1 := by
  rw [← meaningfulWeight_and_0x7F, and_0x7F_eq, meaningfulWeight_flipped_le_one_iff]

/-- A sent nibble comes back exactly when one meaningful bit was flipped at the most. -/
theorem decodeCodeword_flipped_iff (n : Nibble) (e : Mask) :
    decodeCodeword (encodeNibble n ^^^ e) = n ↔ meaningfulWeight e ≤ 1 := by
  rw [decodeCodeword_encodeNibble_xor, ← decodeCodeword_eq_zero_iff]
  simp

/-- DECODE gives the nibble whose codeword is within one meaningful bit of the received word. -/
theorem decodeCodeword_eq_iff (c : Codeword) (n : Nibble) :
    decodeCodeword c = n ↔ meaningfulDistance c (encodeNibble n) ≤ 1 := by
  rw [meaningfulDistance_comm, meaningfulDistance, ← decodeCodeword_flipped_iff n, ← BitVec.xor_assoc,
    BitVec.xor_self, BitVec.zero_xor]

theorem decodeCodeword_encodeNibble (n : Nibble) : decodeCodeword (encodeNibble n) = n := by
  simpa using (decodeCodeword_flipped_iff n 0#8).2 (by decide)

/-- A lone flip is one meaningful bit, or, of bit 7, none. -/
theorem meaningfulWeight_lone_flip_le_one {p : Nat} (hp : p ≤ 7) : meaningfulWeight (1#8 <<< p) ≤ 1 := by
  revert p; decide

/-! ## The other forms of the syndrome and of DECODE (R86, R92) -/

/-- With the data bits zero, each check is the parity bit it covers. -/
theorem syndrome_of_dataField_eq_zero {e : Codeword} (h : dataField e = 0#4) : syndrome e = parityField e := by
  revert e; decide

theorem parityField_xor (c e : Codeword) : parityField (c ^^^ e) = parityField c ^^^ parityField e := by
  ext i hi
  simp [parityField]

/-- The received word against the codeword of its own data bits has the data bits zero and the same syndrome. -/
theorem syndromeByReencoding_eq (c : Codeword) : syndromeByReencoding c = syndrome c := by
  have hdata : dataField (c ^^^ encodeNibble (dataField c)) = 0#4 := by
    rw [dataField_xor, dataField_encodeNibble, BitVec.xor_self]
  calc syndromeByReencoding c
      = parityField (c ^^^ encodeNibble (dataField c)) := (parityField_xor _ _).symm
    _ = syndrome (c ^^^ encodeNibble (dataField c)) := (syndrome_of_dataField_eq_zero hdata).symm
    _ = syndrome c := by rw [syndrome_xor, syndrome_encodeNibble, BitVec.xor_zero]

/-- A mask on a word lets the tapped bit through or gives 0. -/
theorem tap_and (c m : BitVec 8) (i : Nat) : tap (c &&& m) i = if m.getLsbD i then tap c i else 0#1 := by
  rw [tap_eq_ofBool, tap_eq_ofBool, BitVec.getLsbD_and]
  cases m.getLsbD i <;> simp

/-- Each row of H selects the bits of its check. -/
theorem syndromeByCheckMatrix_eq (c : Codeword) : syndromeByCheckMatrix c = syndrome c := by
  rw [syndromeByCheckMatrix, syndrome]
  congr 1 <;>
  · simp [maskedParity, tap_and, checkS1, checkS2, checkS3, codewordD1, codewordD2, codewordD3, codewordD4,
      codewordP1, codewordP2, codewordP3]
    ac_rfl

/-- Bit i of the data field is bit i + 3 of the word (R91). -/
theorem getLsbD_dataField (c : Codeword) {i : Nat} (hi : i < 4) :
    (dataField c).getLsbD i = c.getLsbD (i + 3) := by
  simp [dataField, hi, Nat.add_comm]

theorem tap_dataField (c : Codeword) {i : Nat} (hi : i < 4) : tap (dataField c) i = tap c (i + 3) := by
  rw [tap_eq_ofBool, tap_eq_ofBool, getLsbD_dataField c hi]

/-- A word's data bits, by their taps. -/
theorem dataField_eq_taps (c : Codeword) :
    dataField c = codewordD1 c ++ codewordD2 c ++ codewordD3 c ++ codewordD4 c := by
  rw [← nibble_of_taps (dataField c), nibbleD1, nibbleD2, nibbleD3, nibbleD4]
  simp only [tap_dataField, Nat.reduceLT, codewordD1, codewordD2, codewordD3, codewordD4, Nat.reduceAdd]

/-- The corrected data bits are the received ones with those of the mask on them. -/
theorem decodeCodeword_eq_xor (c : Codeword) :
    decodeCodeword c = dataField c ^^^ dataField (romWord (syndrome c)) := dataField_xor c _

theorem decodeByGates_eq (c : Codeword) : decodeByGates c = decodeCodeword c := by
  rw [decodeCodeword_eq_xor, syndrome, dataField_romWord_layoutSyndrome, dataField_eq_taps,
    BitVec.xor_append, BitVec.xor_append, BitVec.xor_append, decodeByGates]

theorem decodeByReducedRom_eq (c : Codeword) : decodeByReducedRom c = decodeCodeword c := by
  obtain ⟨_, hrom⟩ := List.getElem?_eq_some_iff.1 (reducedRom_getElem? (syndrome c))
  rw [decodeCodeword_eq_xor, ← hrom]
  rfl

/-- The direct table lists DECODE of the words with bit 7 clear, in order. -/
theorem decodeRows_eq_map :
    decodeRowsLow ++ decodeRowsHigh = (List.range 128).map (fun w => decodeCodeword (BitVec.ofNat 8 w)) := by
  decide

theorem decodeByTable_eq (c : Codeword) : decodeByTable c = decodeCodeword c := by
  have hrow : c.toNat % 128 < 128 := Nat.mod_lt _ (by decide)
  rw [← decodeCodeword_and_0x7F, and_0x7F_eq_ofNat_mod, decodeByTable, decodeRows_eq_map]
  simp [List.getD, hrow]

/-! ## The preimages of a nibble (R99) -/

/-- Each nibble stands in eight places of the direct table. -/
theorem count_decodeRows (n : Nibble) : (decodeRowsLow ++ decodeRowsHigh).count n = 8 := by
  revert n; decide

theorem length_filter_decode_range_128 (n : Nibble) :
    ((List.range 128).filter (fun w => decodeCodeword (BitVec.ofNat 8 w) == n)).length = 8 := by
  have hcount := count_decodeRows n
  rwa [decodeRows_eq_map, List.count_eq_countP, List.countP_map, List.countP_eq_length_filter] at hcount

/-- A word of 128 more has bit 7 set besides. -/
theorem decodeCodeword_ofNat_add_128 (w : Nat) :
    decodeCodeword (BitVec.ofNat 8 (128 + w)) = decodeCodeword (BitVec.ofNat 8 w) := by
  have hmod : (128 + w) % 2 ^ 8 % 128 = w % 2 ^ 8 % 128 := by omega
  rw [← decodeCodeword_and_0x7F, and_0x7F_eq_ofNat_mod, BitVec.toNat_ofNat, hmod, ← BitVec.toNat_ofNat,
    ← and_0x7F_eq_ofNat_mod, decodeCodeword_and_0x7F]

theorem length_filter_decode_range_256 (n : Nibble) :
    ((List.range 256).filter (fun w => decodeCodeword (BitVec.ofNat 8 w) == n)).length = 16 := by
  have hhigh : (fun w => decodeCodeword (BitVec.ofNat 8 w) == n) ∘ (fun w => 128 + w) =
      fun w => decodeCodeword (BitVec.ofNat 8 w) == n :=
    funext fun w => congrArg (· == n) (decodeCodeword_ofNat_add_128 w)
  rw [List.range_add (n := 128) (m := 128), List.filter_append, List.length_append, List.filter_map,
    List.length_map, hhigh, length_filter_decode_range_128]

/-! ## Decoders that flip another mask (R98) -/

/-- A mask leaves a wrong nibble on a codeword with an error exactly when it leaves a data bit set on the
error alone. -/
theorem dataField_flipped_bne (n : Nibble) (e m : Mask) :
    (dataField (encodeNibble n ^^^ e ^^^ m) != n) = (dataField (e ^^^ m) != 0#4) := by
  rw [BitVec.xor_assoc, dataField_xor, dataField_encodeNibble, Bool.eq_iff_iff]
  simp

/-- A decoder that chooses its mask by the syndrome errs on a flip whatever nibble was sent, so its wrong
cases are sixteen for each bit whose flip it gets wrong. -/
theorem wrongSingleErrors_eq (packing : Syndrome → Nat) (maskOf : Nat → Mask) :
    wrongSingleErrors packing maskOf = 16 * ((List.range 7).filter (fun p =>
      dataField (1#8 <<< p ^^^ maskOf (packing (syndrome (1#8 <<< p)))) != 0#4)).length := by
  simp only [wrongSingleErrors, syndrome_encodeNibble_xor, dataField_flipped_bne, List.length_flatMap,
    List.map_const', List.sum_replicate_nat, List.length_range]

/-! ## The statements -/

/-- Settles O4: only the port list of the decoders is written, and there only the decoder's own port. -/
theorem decodeFrame : Obligations.DecodeFrame := by
  intro k c s
  refine ⟨_, .nibble (decodeCodeword c), exec_decode k c s, fun j hj => decoderNets_congr ?_,
    fun j => ⟨rfl, rfl⟩, rfl, rfl, rfl⟩
  rw [note_codewordPort, driveCodeword_port, if_neg hj.symm]

/-- Settles O32: ENCODE's output decodes to the nibble. -/
theorem roundTrip : Obligations.RoundTrip := by
  intro k j n s
  obtain ⟨t, hexec, hout⟩ := exec_encode_codewordOut k n s
  exact ⟨t, _, hexec, hout, answers_decode (decodeCodeword_encodeNibble n) j t⟩

/-- Settles O33: DECODE gives the nibble whose codeword is within one meaningful bit, and a flip of bit 7 is
not seen. -/
theorem singleErrorIsCorrected : Obligations.SingleErrorIsCorrected := by
  refine ⟨fun k j n p s hp => ?_, fun j c s => ?_⟩
  · obtain ⟨t, hexec, hout⟩ := exec_encode_codewordOut k n s
    have hdecode : decodeCodeword (encodeNibble n ^^^ 1#8 <<< p) = n :=
      (decodeCodeword_flipped_iff n _).2 (meaningfulWeight_lone_flip_le_one hp)
    exact ⟨t, _, hexec, hout, answers_decode hdecode j t,
      answers_decode ((decodeCodeword_xor_0x80 _).trans hdecode) j t⟩
  · refine ⟨encodeNibble (decodeCodeword c), isValid_encodeNibble _, (decodeCodeword_eq_iff c _).1 rfl,
      fun u hu hdist => ?_, answers_decode (dataField_encodeNibble _).symm j s⟩
    obtain ⟨n, rfl⟩ := exists_encodeNibble_of_isValid hu
    rw [(decodeCodeword_eq_iff c n).2 hdist]

/-- Settles O34: more than one meaningful flip is more than DECODE undoes; it gives the nibble of the codeword
that is within one meaningful bit of what was received. -/
theorem moreErrorsNeverDecodeRight : Obligations.MoreErrorsNeverDecodeRight := by
  intro k j n e s he
  obtain ⟨t, hexec, hout⟩ := exec_encode_codewordOut k n s
  refine ⟨t, _, decodeCodeword (encodeNibble n ^^^ e), encodeNibble (decodeCodeword (encodeNibble n ^^^ e)),
    hexec, hout, answers_decode rfl j t, ?_, isValid_encodeNibble _, dataField_encodeNibble _,
    (decodeCodeword_eq_iff _ _).1 rfl⟩
  exact mt (decodeCodeword_flipped_iff n e).1 (Nat.not_le.2 he)

/-- Settles O2: the nets are the four steps of DECODE, and the checks are read bit by bit. -/
theorem decodeAnswersNibble : Obligations.DecodeAnswersNibble := by
  intro k c s
  obtain ⟨t, hexec, hrecord⟩ := answers_resultOf (.decode k c) s
  have hport := codewordPort_of_exec_decode hexec
  obtain ⟨hsyndrome, hmask, hcorrected, hout⟩ := decoderNets_of_port hport
  exact ⟨t, _, _, _, _, hexec, hport, hsyndrome, getLsbD_syndrome_2 c, getLsbD_syndrome_1 c, getLsbD_syndrome_0 c,
    hmask, syndromeRom_getElem? _, hcorrected, rfl, hout,
    fun i hi => getLsbD_dataField (corrected c) hi, hrecord⟩

/-- Settles O26: the syndrome is linear and 0 on a codeword. -/
theorem syndromeNamesTheFlippedBit : Obligations.SyndromeNamesTheFlippedBit := by
  refine ⟨fun k n e s t hexec => ?_, syndrome_xor, by decide, by decide⟩
  obtain ⟨hsyndrome, -⟩ := decoderNets_of_port (codewordPort_of_exec_decode hexec)
  rw [hsyndrome, syndrome_encodeNibble_xor]

/-- Settles O27: the table, word by word. -/
theorem romHoldsTheMasks : Obligations.RomHoldsTheMasks :=
  ⟨rfl, rfl, fun a ha => ⟨syndrome_romWord a, romWord_eq_lone_flip ha⟩, reducedRom_getElem?⟩

/-- Settles O29: the mask is a lone flip of a meaningful bit, or none, and its syndrome is the received word's. -/
theorem correctionInvertsAtMostOneBit : Obligations.CorrectionInvertsAtMostOneBit := by
  intro k c s
  have hexec := exec_decode k c s
  obtain ⟨hsyndrome, hmask, hcorrected, -⟩ := decoderNets_of_port (codewordPort_of_exec_decode hexec)
  refine ⟨_, corrected c, flipMask c, hexec, hcorrected, hmask, rfl, getLsbD_corrected_7 c, ?_, ?_,
    syndrome_corrected c⟩
  · simp only [hsyndrome, Option.some.injEq, meaningfulDistance_corrected]
  · exact encodeNibble_decodeCodeword c ▸ isValid_encodeNibble _

/-- Settles O30: the gates and the reduced table are the data bits of the mask, the direct table is read row by
row, and the syndrome's forms agree by linearity and by the rows of H. -/
theorem decodeFormsAgree : Obligations.DecodeFormsAgree := fun c =>
  ⟨decodeByGates_eq c, decodeByReducedRom_eq c, decodeByTable_eq c, syndromeByReencoding_eq c,
    syndromeByCheckMatrix_eq c⟩

/-- Settles O31: DECODE of the word with bit 7 inverted or cleared is that of the word. -/
theorem decodeIgnoresBit7 : Obligations.DecodeIgnoresBit7 := by
  intro k c s
  exact ⟨decodeCodeword c, answers_decode rfl k s, answers_decode (decodeCodeword_xor_0x80 c) k s,
    answers_decode (decodeCodeword_and_0x7F c) k s⟩

/-- Settles O35: the counts are sixteen times those over the seven bits, five of which the first formula gets
wrong, six the second, and none the table. -/
theorem shiftFormulasFail : Obligations.ShiftFormulasFail := by
  refine ⟨by decide, rfl, ?_⟩
  simp only [wrongSingleErrors_eq]
  decide

/-- Settles O36: the counts are read off the direct table, and the rest follows from linearity and from what
the corrected word is. -/
theorem decodeProperties : Obligations.DecodeProperties := by
  refine ⟨fun n => ⟨length_filter_decode_range_256 n, length_filter_decode_range_128 n⟩,
    decodeCodeword_xor_0x80, fun c v hv => ?_, fun c => ?_, encodeNibble_decodeCodeword, by decide, by decide, by decide⟩
  · obtain ⟨n, rfl⟩ := exists_encodeNibble_of_isValid hv
    rw [BitVec.xor_comm, decodeCodeword_encodeNibble_xor, dataField_encodeNibble, BitVec.xor_comm]
  · have hdiff : decodeCodeword c ^^^ dataField c = dataField (romWord (syndrome c)) := by
      rw [decodeCodeword_eq_xor, BitVec.xor_comm, ← BitVec.xor_assoc, BitVec.xor_self, BitVec.zero_xor]
    rw [hdiff, length_filter_dataField_romWord]

end Sys2Proof.Machine

/-! PROOFS of the statements on the environment (spec/42_environment.md): the end of its list (R118), the corruptor
(R115 to R117) and the driver's streams (R110 to R113). A byte stream is its nibbles, two to a byte, and each
nibble travels in a codeword of its own; so a law of streams is the law of one codeword, position by position. -/

namespace Sys2Proof.Machine

/-! ## Runs past the end of the environment's list -/

/-- A run is a run of its first steps and then of the rest. -/
theorem run_add {M : Host.Core} {m : Nat} {s t : M.State} (h : M.run m s = .next t) (k : Nat) :
    M.run (m + k) s = M.run k t := by
  induction m generalizing s with
  | zero =>
    cases h
    rw [Nat.zero_add]
  | succ m ih =>
    rw [Nat.succ_add, Host.Core.run]
    rw [Host.Core.run] at h
    cases hstep : M.step s with
    | next u => exact ih (by rwa [hstep] at h)
    | fault r => rw [hstep] at h; cases h
    | refused r => rw [hstep] at h; cases h

/-- Where nothing is pending, a run of any length changes nothing. -/
theorem run_of_pending_nil {s : State} (h : s.pending = []) (k : Nat) :
    Host.Core.run Sys2Proof.core k s = .next s := by
  induction k with
  | zero => exact run_zero s
  | succ k ih => rw [run_succ k (step_nil h), ih]

/-! ## The corruptor -/

/-- A word with one bit set, bit by bit. -/
theorem getLsbD_lone_flip (f : Config.FlipIndex) (i : Nat) : (1#8 <<< f.val).getLsbD i = (i == f.val) := by
  rw [← BitVec.twoPow_eq, BitVec.getLsbD_twoPow, Bool.beq_comm]
  simp [f.isLt, beq_eq_decide]

/-- DECODE undoes the corruptor, whatever it draws (R117). -/
theorem decodeCodeword_corrupt (n : Nibble) (f : Config.FlipIndex) :
    decodeCodeword (corrupt (encodeNibble n) f) = n :=
  (decodeCodeword_flipped_iff n _).2 (meaningfulWeight_lone_flip_le_one (Nat.le_of_lt_succ f.isLt))

/-! ## Bytes and their nibbles -/

@[simp] theorem highNibble_joinNibbles (hi lo : Nibble) : highNibble (joinNibbles hi lo) = hi := by
  revert hi lo; decide

@[simp] theorem lowNibble_joinNibbles (hi lo : Nibble) : lowNibble (joinNibbles hi lo) = lo := by
  revert hi lo; decide

@[simp] theorem nibblesOf_nil : nibblesOf [] = [] := rfl
@[simp] theorem nibblesOf_cons (b : Byte) (bs : List Byte) :
    nibblesOf (b :: bs) = highNibble b :: lowNibble b :: nibblesOf bs := rfl

@[simp] theorem length_nibblesOf (bs : List Byte) : (nibblesOf bs).length = 2 * bs.length := by
  induction bs with
  | nil => rfl
  | cons b bs ih => simp [ih, Nat.mul_succ]

/-- Position 2i of the nibbles is byte i's high nibble. -/
theorem nibblesOf_getElem?_even (bs : List Byte) (i : Nat) : (nibblesOf bs)[2 * i]? = bs[i]?.map highNibble := by
  induction bs generalizing i with
  | nil => rfl
  | cons b bs ih =>
    cases i with
    | zero => rfl
    | succ i => exact ih i

/-- Position 2i + 1 of the nibbles is byte i's low nibble. -/
theorem nibblesOf_getElem?_odd (bs : List Byte) (i : Nat) :
    (nibblesOf bs)[2 * i + 1]? = bs[i]?.map lowNibble := by
  induction bs generalizing i with
  | nil => rfl
  | cons b bs ih =>
    cases i with
    | zero => rfl
    | succ i => exact ih i

/-- Every stream of evenly many nibbles is that of some bytes. -/
theorem exists_nibblesOf : ∀ {ns : List Nibble}, ns.length % 2 = 0 → ∃ bs, nibblesOf bs = ns
  | [], _ => ⟨[], rfl⟩
  | [_], h => nomatch h
  | hi :: lo :: ns, h => by
    obtain ⟨bs, rfl⟩ := exists_nibblesOf (ns := ns) ((Nat.add_mod_right ns.length 2).symm.trans h)
    exact ⟨joinNibbles hi lo :: bs, by simp⟩

/-- Nibbles joined again are the bytes they came from, and a nibble over is the policy's (R112, R37). -/
theorem joinStream_nibblesOf_append (odd : Config.OddTailPolicy) (bs : List Byte) (ns : List Nibble) :
    joinStream odd (nibblesOf bs ++ ns) = (joinStream odd ns).map (fun tail => bs ++ tail) := by
  induction bs with
  | nil => simp
  | cons b bs ih => simp [joinStream, ih, Function.comp_def]

theorem joinStream_nibblesOf (odd : Config.OddTailPolicy) (bs : List Byte) :
    joinStream odd (nibblesOf bs) = some bs := by
  simpa [joinStream] using joinStream_nibblesOf_append odd bs []

/-- The decoding driver's stream is that of the nibbles its codewords carry. -/
theorem decodeStream_eq_joinStream (odd : Config.OddTailPolicy) :
    ∀ cs : List Codeword, decodeStream odd cs = joinStream odd (cs.map decodeCodeword)
  | [] => rfl
  | [_] => rfl
  | c0 :: c1 :: cs => by
    simp [decodeStream, joinStream, decodePair, decodeStream_eq_joinStream odd cs]

/-- A stream of evenly many codewords decodes, whatever the policy, to the bytes whose nibbles its codewords
carry. -/
theorem exists_decodeStream {cs : List Codeword} (h : cs.length % 2 = 0) :
    ∃ bs, nibblesOf bs = cs.map decodeCodeword ∧ ∀ odd, decodeStream odd cs = some bs := by
  obtain ⟨bs, hbs⟩ := exists_nibblesOf (ns := cs.map decodeCodeword) (by simpa using h)
  exact ⟨bs, hbs, fun odd => by rw [decodeStream_eq_joinStream, ← hbs, joinStream_nibblesOf]⟩

@[simp] theorem length_encodeStream (bs : List Byte) : (encodeStream bs).length = 2 * bs.length := by
  rw [encodeStream_eq_map, List.length_map, length_nibblesOf]

/-! ## Errors on a stream -/

/-- An error pattern reaches the codeword at its own position and no other. -/
theorem applyErrors_eq_mapIdx (es : List Mask) (cs : List Codeword) :
    applyErrors es cs = cs.mapIdx (fun j c => c ^^^ es.getD j 0x00#8) := by
  induction es generalizing cs with
  | nil => exact (List.mapIdx_eq_iff.2 fun j => by simp [applyErrors]).symm
  | cons e es ih =>
    cases cs with
    | nil => rfl
    | cons c cs => simp [applyErrors, ih, List.mapIdx_cons]

@[simp] theorem length_applyErrors (es : List Mask) (cs : List Codeword) :
    (applyErrors es cs).length = cs.length := by
  rw [applyErrors_eq_mapIdx, List.length_mapIdx]

/-- Nibble j of a received stream is that of codeword j with its own pattern on it. -/
theorem decoded_applyErrors_getElem? (es : List Mask) (ns : List Nibble) (j : Nat) :
    ((applyErrors es (ns.map encodeNibble)).map decodeCodeword)[j]? =
      ns[j]?.map (fun n => decodeCodeword (encodeNibble n ^^^ es.getD j 0x00#8)) := by
  simp [applyErrors_eq_mapIdx, Function.comp_def]

/-- Patterns of one meaningful flip at the most leave the nibbles as they were sent (R113). -/
theorem decoded_applyErrors {es : List Mask} (h : ∀ e ∈ es, meaningfulWeight e ≤ 1) (ns : List Nibble) :
    (applyErrors es (ns.map encodeNibble)).map decodeCodeword = ns := by
  have hpattern (j : Nat) : meaningfulWeight (es.getD j 0x00#8) ≤ 1 := by
    by_cases hj : j < es.length
    · exact List.getD_eq_getElem es _ hj ▸ h _ (List.getElem_mem hj)
    · rw [List.getD_eq_default es _ (Nat.le_of_not_lt hj)]
      decide
  refine List.ext_getElem? fun j => ?_
  simp only [decoded_applyErrors_getElem?, (decodeCodeword_flipped_iff _ _).2 (hpattern j), Option.map_id_fun', id]

/-- Such a stream decodes to its source. -/
theorem decodeStream_applyErrors {es : List Mask} (h : ∀ e ∈ es, meaningfulWeight e ≤ 1)
    (odd : Config.OddTailPolicy) (bs : List Byte) :
    decodeStream odd (applyErrors es (encodeStream bs)) = some bs := by
  rw [decodeStream_eq_joinStream, encodeStream_eq_map, decoded_applyErrors h, joinStream_nibblesOf]

/-- The error pattern of one choice of the environment; `corruptStream_eq_applyErrors` says that it is. -/
def drawMask (draw : Option Config.FlipIndex) : Mask :=
  match draw with
  | none   => 0x00#8
  | some f => 1#8 <<< f.val

theorem meaningfulWeight_drawMask_le_one (draw : Option Config.FlipIndex) :
    meaningfulWeight (drawMask draw) ≤ 1 := by
  cases draw with
  | none => decide
  | some f => exact meaningfulWeight_lone_flip_le_one (Nat.le_of_lt_succ f.isLt)

/-- The corruptor over a stream is the error patterns of its draws. -/
theorem corruptStream_eq_applyErrors (draws : List (Option Config.FlipIndex)) (cs : List Codeword) :
    corruptStream draws cs = applyErrors (draws.map drawMask) cs := by
  induction draws generalizing cs with
  | nil => rfl
  | cons draw draws ih =>
    cases cs with
    | nil => cases draw <;> rfl
    | cons c cs => cases draw <;> simp [corruptStream, applyErrors, drawMask, corrupt, ih]

/-! ## The statements -/

/-- Settles O9: the run of the pending drives leaves none, and a run from there changes nothing. -/
theorem runAnswersTheList : Obligations.RunAnswersTheList := by
  intro s
  obtain ⟨t, hrun, hpending, hrecord⟩ := run_withPending s.pending s
  exact ⟨t, fun k => (run_add hrun k).trans (run_of_pending_nil hpending k), hpending, hrecord⟩

/-- Settles O38: the corruptor's flip is one that DECODE undoes. -/
theorem corruptedCodewordDecodes : Obligations.CorruptedCodewordDecodes := by
  intro k j n f s
  obtain ⟨t, hexec, hout⟩ := exec_encode_codewordOut k n s
  exact ⟨t, _, hexec, hout, answers_decode (decodeCodeword_corrupt n f) j t⟩

/-- Settles O39: the stream is the codewords of the nibbles, and those stand two to a byte. -/
theorem encodedStreamLayout : Obligations.EncodedStreamLayout := by
  intro bs
  refine ⟨length_encodeStream bs, fun i => ⟨?_, ?_⟩, fun c hc => ?_⟩
  · rw [encodeStream_eq_map, List.getElem?_map, nibblesOf_getElem?_even, Option.map_map]
    rfl
  · rw [encodeStream_eq_map, List.getElem?_map, nibblesOf_getElem?_odd, Option.map_map]
    rfl
  · rw [encodeStream_eq_map] at hc
    obtain ⟨n, -, rfl⟩ := List.mem_map.1 hc
    exact getLsbD_encodeNibble_7 n

/-- Settles O40: byte i's two nibbles are those of codewords 2i and 2i + 1, and a byte is its nibbles joined. -/
theorem decodedStreamLayout : Obligations.DecodedStreamLayout := by
  intro odd cs heven
  obtain ⟨bs, hbs, hdecode⟩ := exists_decodeStream heven
  refine ⟨bs, hdecode odd, ?_, fun i b hb => ?_, fun c => ?_⟩
  · rw [← length_nibblesOf, hbs, List.length_map]
  · have hhigh := nibblesOf_getElem?_even bs i
    have hlow := nibblesOf_getElem?_odd bs i
    rw [hbs, List.getElem?_map, hb] at hhigh hlow
    obtain ⟨c0, hc0, hhi⟩ := Option.map_eq_some_iff.1 hhigh
    obtain ⟨c1, hc1, hlo⟩ := Option.map_eq_some_iff.1 hlow
    refine ⟨c0, c1, hc0, hc1, ?_⟩
    rw [hhi, hlo]
    exact (joinNibbles_of_byte b).symm
  · rw [decodeStream_eq_joinStream, List.map_append, ← hbs, joinStream_nibblesOf_append]
    rfl

/-- Settles O41: nibble j of the decoded stream depends on pattern j alone. -/
theorem streamErrorsStayConfined : Obligations.StreamErrorsStayConfined := by
  intro odd bs es
  obtain ⟨out, hout, hdecode⟩ := exists_decodeStream (cs := applyErrors es (encodeStream bs)) (by simp)
  refine ⟨out, hdecode odd, ?_, fun j hj => ?_, fun hes => ?_⟩
  · have hlength := congrArg List.length hout
    simp only [length_nibblesOf, List.length_map, length_applyErrors, length_encodeStream] at hlength
    omega
  · rw [← length_nibblesOf] at hj
    rw [hout, encodeStream_eq_map, decoded_applyErrors_getElem?, List.getElem?_eq_getElem hj, Option.map_some,
      Option.some_inj, decodeCodeword_flipped_iff]
  · exact Option.some_inj.1 ((hdecode odd).symm.trans (decodeStream_applyErrors hes odd bs))

/-- Settles O42: each draw is a pattern of one meaningful flip at the most. -/
theorem corruptedStreamDecodes : Obligations.CorruptedStreamDecodes := by
  intro odd bs draws
  rw [corruptStream_eq_applyErrors]
  refine decodeStream_applyErrors (fun e he => ?_) odd bs
  obtain ⟨draw, -, rfl⟩ := List.mem_map.1 he
  exact meaningfulWeight_drawMask_le_one draw

/-- Settles O43: what each run writes down, placed, is the stream mapped; the errors are undone codeword by
codeword, and the nibbles join to the bytes they came from. -/
theorem machineStreamRoundTrip : Obligations.MachineStreamRoundTrip := by
  intro s encAt decAt encOrder decOrder odd bs es hes henc hdec
  rw [← length_nibblesOf] at henc hdec ⊢
  have hlength : (applyErrors es (encodeStream bs)).length = (nibblesOf bs).length := by simp
  have hsent : placeResults (nibblesOf bs).length encOrder
      (codewordsRead ((encodeDrives encAt encOrder (nibblesOf bs)).map evaluationOf)) = encodeStream bs := by
    rw [placeResults_encodeDrives encAt henc, encodeStream_eq_map]
  have hgot : placeResults (nibblesOf bs).length decOrder
      (nibblesRead ((decodeDrives decAt decOrder (applyErrors es (encodeStream bs))).map evaluationOf)) =
        nibblesOf bs := by
    rw [← hlength] at hdec ⊢
    rw [placeResults_decodeDrives decAt hdec, encodeStream_eq_map, decoded_applyErrors hes]
  obtain ⟨t, hrun, -, hrecord⟩ := run_withPending (encodeDrives encAt encOrder (nibblesOf bs)) s
  obtain ⟨u, hrun', -, hrecord'⟩ :=
    run_withPending (decodeDrives decAt decOrder (applyErrors es (encodeStream bs))) t
  refine ⟨t, u, _, _, _, _, rfl, hrun, hrecord, hsent, by rw [hsent], hrun', hrecord', ?_⟩
  rw [hgot, joinStream_nibblesOf]

/-- Settles O7: the step's case for an empty list. -/
theorem stepAtTheEnd : Obligations.StepAtTheEnd := fun _ => step_nil

/-- Settles O37: the corruptor's mask has the bit at its index set and no other. -/
theorem corruptorFlipsOneBit : Obligations.CorruptorFlipsOneBit := by
  intro c f i _
  rw [corrupt, BitVec.getLsbD_xor, getLsbD_lone_flip]

end Sys2Proof.Machine

/-! PROOFS of the statements on exceptions (spec/60_exceptions.md): nothing stops the machine, in any state and
for any number of steps (R125, R127). -/

namespace Sys2Proof.Machine

/-- Every step answers a state: that of the evaluation it runs or, at the end of the list, the state it began
with (DESIGN CHOICE, log entry 6). -/
theorem exists_step (s : State) : ∃ t, step s = .next t := by
  cases h : s.pending with
  | nil => exact ⟨s, step_nil h⟩
  | cons d ds => exact ⟨_, (step_cons h).trans (exec_eq _ _)⟩

/-- So does a run, whatever its length and whatever is pending. -/
theorem exists_run (k : Nat) (s : State) : ∃ t : State, Host.Core.run Sys2Proof.core k s = .next t := by
  induction k generalizing s with
  | zero => exact ⟨s, run_zero s⟩
  | succ k ih =>
    obtain ⟨u, hstep⟩ := exists_step s
    obtain ⟨t, hrun⟩ := ih u
    exact ⟨t, (run_succ k hstep).trans hrun⟩

/-- Settles O8: every instruction answers its result, and a run is steps that each answer a state. -/
theorem nothingStops : Obligations.NothingStops :=
  ⟨fun i s => ⟨resultOf i, answers_resultOf i s⟩, exists_run⟩

end Sys2Proof.Machine

/-! PROOFS of the statements on reset (spec/70_reset_and_hazards.md): the hardware holds nothing (R145), so the
start is the environment's, with no port driven (DESIGN CHOICE, log entry 4). -/

namespace Sys2Proof.Machine

@[simp] theorem reset_nibblePort (k : Nat) : State.reset.nibblePort k = none := rfl
@[simp] theorem reset_codewordPort (k : Nat) : State.reset.codewordPort k = none := rfl
@[simp] theorem reset_pending : State.reset.pending = [] := rfl
@[simp] theorem reset_record : State.reset.record = [] := rfl

/-- Settles O14: an output is read off its port, which is not driven, and a step with nothing pending changes
nothing. -/
theorem resetIsEmpty : Obligations.ResetIsEmpty := by
  refine ⟨fun k => ⟨reset_nibblePort k, reset_codewordPort k, ?_, ?_⟩, reset_pending, reset_record,
    step_nil reset_pending⟩
  · rw [codewordOut_of_port, reset_nibblePort, Option.map_none]
  · rw [nibbleOut_of_port, reset_codewordPort, Option.map_none]

end Sys2Proof.Machine

/-! PROOFS of the statements on what holds at the start (spec/70_reset_and_hazards.md section 1) and on when an
output has a value (spec/10_state.md section 4). -/

namespace Sys2Proof.Machine

@[simp] theorem portsWf_nil {α : Type} : portsWf ([] : List (Nat × α)) = true := rfl
@[simp] theorem reset_nibbleIn : State.reset.nibbleIn = [] := rfl
@[simp] theorem reset_codewordIn : State.reset.codewordIn = [] := rfl

/-- Settles O13: there are no ports to be out of order and no results to be wrong, and a port that is not driven
(DESIGN CHOICE, log entry 4) is what an empty record asks for (log entry 5). -/
theorem resetInv : Obligations.ResetInv where
  nibbleWf := by rw [reset_nibbleIn, portsWf_nil]
  codewordWf := by rw [reset_codewordIn, portsWf_nil]
  recorded e he := by
    rw [reset_record] at he
    exact absurd he List.not_mem_nil
  nibbleHeld k := by rw [reset_nibblePort, reset_record, lastNibble_nil]
  wordHeld k := by rw [reset_codewordPort, reset_record, lastCodeword_nil]

/-- Settles O15: each output is a total function of the word on its own port, so it has a value when the port
has one (R23) and, in the model, only then (DESIGN CHOICE, log entry 4). -/
theorem outputsDefinedWithInputs : Obligations.OutputsDefinedWithInputs := by
  refine fun s k => ⟨?_, ?_⟩
  · rw [codewordOut_of_port, Option.isSome_map]
  · rw [nibbleOut_of_port, Option.isSome_map]

end Sys2Proof.Machine
